-- ==== Sys2Proof/Word.lean ====
section
/-! DEFINITION. The machine word of `spec/00_scope.md` R8 and R11: a signed 64-bit two's-complement
integer, the only width that a cell, an operand word, a queued value or the relative base has. -/

namespace Sys2Proof

/-- `Word` of R11: 64 bits, read as the signed integer `w.toInt`. -/
abbrev Word := BitVec 64

/-- The smallest word, `-2^63` (R11). -/
def wordMin : Int := -9223372036854775808

/-- The largest word, `2^63 - 1` (R11). -/
def wordMax : Int := 9223372036854775807

end Sys2Proof
end

