-- ==== Sys2Proof/Config.lean ====
section
/-! DEFINITION. What one implementation fixes (the parameters of `spec/00_scope.md` R9) and the free
values that stand for what the spec leaves unspecified (`spec/93_implementation_defined.md` U1, U11). -/

namespace Sys2Proof

/-- The implementation parameters of R9. A capacity of `none` is "unbounded". -/
structure Config where
  /-- `MEM_CELLS`: the addresses `0 .. memCells - 1` exist. -/
  memCells : Nat
  /-- `INQ_CAPACITY`: the most values the input queue holds. -/
  inqCapacity : Option Nat
  /-- `OUTQ_CAPACITY`: the most values the output sequence holds. -/
  outqCapacity : Option Nat
  deriving DecidableEq, Repr

/-- The defaults of R9: `MEM_CELLS = 2^63`, both queues unbounded. -/
def Config.standard : Config :=
  { memCells := 9223372036854775808, inqCapacity := none, outqCapacity := none }

/-- The legal ranges of R9: `MEM_CELLS` in `1 .. 2^63`, each capacity in `1 .. unbounded`. -/
def Config.wf (c : Config) : Bool :=
  decide (1 ≤ c.memCells) && decide (c.memCells ≤ 9223372036854775808)
    && (match c.inqCapacity with | none => true | some n => decide (1 ≤ n))
    && (match c.outqCapacity with | none => true | some n => decide (1 ≤ n))

/-! Free values (log entry 3: DESIGN CHOICE, safe). None has a body, so no proof can know its value; each is applied to the
counter `State.freeCount`, and whoever uses one advances that counter. -/

/-- What memory holds where the spec leaves it unspecified: the cells listed, zero elsewhere. -/
opaque Config.freeCells : Nat → List (Nat × Word)

/-- What `ip` holds where the spec leaves it unspecified. -/
opaque Config.freeIp : Nat → Int

/-- What `rb` holds where the spec leaves it unspecified. -/
opaque Config.freeRb : Nat → Word

/-- What `INQ` holds where the spec leaves it unspecified. -/
opaque Config.freeInq : Nat → List Word

/-- What `OUT` holds where the spec leaves it unspecified. -/
opaque Config.freeOut : Nat → List Word

/-- What the 65-bit register `FAULT_IP` holds where the spec leaves it unspecified. -/
opaque Config.freeFaultIp : Nat → BitVec 65

end Sys2Proof
end

