-- ==== Sys2Proof/Machine/State.lean ====
section
/-! DEFINITION. The complete state of one machine instance (`spec/10_state.md`, head and R20 to R35) as
plain data, the faults of `spec/60_exceptions.md` R171, and the state after reset. -/

namespace Sys2Proof.Machine

/-- The faults of R171. Every one is a synchronous, fatal exception whose entry the spec describes (R181),
so an instruction that raises one takes it: the step answers a NEXT state in which the engine is FAULTED and
`State.fault` holds the cause. `Host.Outcome.fault` is never answered. Taking the fault is what the spec
says, so each is safe (log entry 8: DEDUCED). -/
inductive Fault where
  /-- Code 1. Raised by decode: the instruction word is negative or its opcode is unknown (R172). Safe. -/
  | invalidOpcode
  /-- Code 2. Raised by decode: a write parameter is in immediate mode (R173). Safe. -/
  | invalidWriteMode
  /-- Code 3. Raised by INPUT with an empty queue in a strict RUN (R174). Safe. -/
  | inputUnderflow
  /-- Code 4. Raised by fetch and by parameter resolution: an address below 0 (R175). Safe. -/
  | negativeAddress
  /-- Code 5. Raised by decode: a mode digit 3 to 9 or a surplus digit (R176). Safe. -/
  | invalidMode
  /-- Code 6. Raised by fetch, operand fetch and parameter resolution: an address at or above `MEM_CELLS`
  (R177). Safe. -/
  | addressOutOfRange
  /-- Code 7. Raised by ADD, MUL and BASE_OFFSET: the exact result does not fit a word (R178). Safe. -/
  | overflow
  /-- Code 8. Raised by OUTPUT when a finite `OUTQ_CAPACITY` is reached (R179). Safe. -/
  | outputFull
  deriving DecidableEq, Repr

/-- Why the model gives an instruction no meaning. Every instruction of this machine has one. -/
inductive Refusal where
  /-- Raised by no arm of `exec` any more: it would say that the named instruction is not modelled yet.
  Safe: the model stops where the hardware goes on. -/
  | notModelled (mnemonic : String)
  deriving DecidableEq, Repr

/-- `STATE` of R28. -/
inductive EngineState where
  /-- No program has been loaded since power-on. -/
  | unloaded
  /-- A program is loaded and has never run. -/
  | ready
  /-- A RUN is in progress. -/
  | running
  /-- The last RUN stopped at an INPUT that found the queue empty. -/
  | suspended
  /-- The last RUN executed a HALT. -/
  | halted
  /-- A fault ended the last RUN. -/
  | faulted
  deriving DecidableEq, Repr

/-- Memory `M` (R27): the cells that hold a non-zero word, as (address, word) pairs by rising address. A
cell that is not listed reads 0 (R42). The word is the smallest unit the machine addresses (R45, R47; log
entry 10: DEDUCED, safe). -/
abbrev Memory := List (Nat × Word)

/-- The state of one machine instance. -/
structure State where
  /-- The parameters of R9. No step and no transaction changes them (log entry 1: DESIGN CHOICE, safe). -/
  cfg : Config
  /-- `M` (R27). -/
  mem : Memory
  /-- `ip` (R21, R22): an exact integer; a 65-bit signed register holds every reachable value (log entry 9: DESIGN
  CHOICE, safe). -/
  ip : Int
  /-- `rb` (R23). -/
  rb : Word
  /-- `INQ` (R25), oldest value first. -/
  inq : List Word
  /-- `OUT` (R26), oldest value first. -/
  out : List Word
  /-- `STATE` (R28). -/
  engine : EngineState
  /-- `FAULT_CODE` (R30); `none` is code 0. -/
  fault : Option Fault
  /-- `FAULT_IP` (R30), a 65-bit signed register, held as the integer it stands for (log entry 9). -/
  faultIp : Int
  /-- The strict argument of the RUN in progress (R34, R97). The model's own field (log entry 2: DESIGN CHOICE,
  safe). -/
  strict : Bool
  /-- How many times free values have been drawn. The model's own field (log entry 3: DESIGN CHOICE, safe). -/
  freeCount : Nat
  deriving DecidableEq, Repr

/-- The machine after reset. Its reset is LOAD (R195): this is the "after LOAD" column of R35 for the
program of no words and no initial inputs, with the default parameters. R35 leaves `FAULT_IP` unspecified;
the 0 is log entry 4's (DESIGN CHOICE, unsafe). -/
def State.reset : State :=
  { cfg := Config.standard
    mem := []
    ip := 0
    rb := 0
    inq := []
    out := []
    engine := .ready
    fault := none
    faultIp := 0
    strict := false
    freeCount := 0 }

end Sys2Proof.Machine
end

