-- ==== Sys2Proof/Machine/Flags.lean ====
section
/-! DEFINITION. The machine has no flags (`spec/10_state.md` R24). This file holds what stands in their
place: the 64-bit fit of an exact result (R11, R122), the 0/1 word of a comparison (R132) and the truth
value of a conditional jump (R140). -/

namespace Sys2Proof.Machine

/-- `fits64(v)` of R11. -/
abbrev fits64 (v : Int) : Prop := wordMin ≤ v ∧ v ≤ wordMax

/-- An exact result as a word, or `Overflow` (R122, R178). -/
def narrow (v : Int) : Except Fault Word :=
  if fits64 v then .ok (BitVec.ofInt 64 v) else .error .overflow

/-- The result of a comparison: exactly 0 or 1 (R132). -/
def boolWord (b : Bool) : Word := if b then 1 else 0

/-- The truth value of R140: any non-zero word is true (the spec's decision D9; log entry 5: PRESUMED,
unsafe). -/
def holds (c : Word) : Bool := decide (c ≠ 0)

end Sys2Proof.Machine
end

