-- ==== Sys2Proof/Syntax.lean ====
section
/-! DEFINITION. The instruction set as data: the closed set of ten instruction kinds of
`spec/30_encoding.md` R63, one constructor of `Instr` per row of `spec/opcode_table.json`. -/

namespace Sys2Proof

/-- The addressing modes of R62. -/
inductive Mode where
  /-- Digit 0: the operand word is the address of the cell. -/
  | position
  /-- Digit 1: the operand word is the value. -/
  | immediate
  /-- Digit 2: the cell's address is `rb` plus the operand word. -/
  | relative
  deriving DecidableEq, Repr

/-- A parameter: its addressing mode and its whole operand word (R17, R65). -/
structure Param where
  mode : Mode
  word : Word
  deriving DecidableEq, Repr

/-- Whether a parameter is consumed or names the address stored to (R17, R64). -/
inductive Role where
  | read
  | write
  deriving DecidableEq, Repr

/-- The instruction kinds of R63, without their parameters: what the opcode digits select. -/
inductive Kind where
  | add
  | mul
  | input
  | output
  | jmpTrue
  | jmpFalse
  | lessThan
  | equals
  | baseOffset
  | halt
  deriving DecidableEq, Repr

/-- An instruction with its parameters in the order of R64. -/
inductive Instr where
  /-- ADD (R120). -/
  | add (a b dst : Param)
  /-- MUL (R121). -/
  | mul (a b dst : Param)
  /-- INPUT (R150). -/
  | input (dst : Param)
  /-- OUTPUT (R151). -/
  | output (a : Param)
  /-- JMP_TRUE (R141). -/
  | jmpTrue (c target : Param)
  /-- JMP_FALSE (R142). -/
  | jmpFalse (c target : Param)
  /-- LESS_THAN (R130). -/
  | lessThan (a b dst : Param)
  /-- EQUALS (R131). -/
  | equals (a b dst : Param)
  /-- BASE_OFFSET (R160). -/
  | baseOffset (a : Param)
  /-- HALT (R144). -/
  | halt
  deriving DecidableEq, Repr

end Sys2Proof
end

