-- ==== Sys2Proof/WellFormed.lean ====
section
/-! DEFINITION. Which instructions have an encoding: every operand word is legal (R65), and a write
parameter is never in immediate mode (`spec/30_encoding.md` R66, R71). -/

namespace Sys2Proof

/-- The write parameter of an instruction, where it has one (the `w` entries of R64). -/
def Instr.writeParam : Instr → Option Param
  | .add _ _ dst => some dst
  | .mul _ _ dst => some dst
  | .input dst => some dst
  | .output _ => none
  | .jmpTrue _ _ => none
  | .jmpFalse _ _ => none
  | .lessThan _ _ dst => some dst
  | .equals _ _ dst => some dst
  | .baseOffset _ => none
  | .halt => none

/-- An instruction is well formed when its write parameter, if any, is in position or relative mode. -/
def Instr.wf (i : Instr) : Bool :=
  match i.writeParam with
  | none => true
  | some p => decide (p.mode ≠ .immediate)

end Sys2Proof
end

