-- ==== Sys2Proof/Decode.lean ====
section
/-! DEFINITION. The decimal instruction word of `spec/30_encoding.md`: the tables of R63 and R64, the
decode function of R75, the encoder of R66, and the table word the host asks about. -/

namespace Sys2Proof

/-! ## The tables -/

/-- The decimal digit of `n` at position `i`, counted from the units (R12). -/
def digit (n i : Nat) : Nat := n / 10 ^ i % 10

/-- The mode digit of an addressing mode (R62). -/
def Mode.digit : Mode → Nat
  | .position => 0
  | .immediate => 1
  | .relative => 2

/-- The addressing mode of a mode digit; 3 to 9 name none (R62, R69). -/
def Mode.ofDigit : Nat → Option Mode
  | 0 => some .position
  | 1 => some .immediate
  | 2 => some .relative
  | _ => none

/-- The opcode map of R63 (5 to 9 are the spec's decision D4, from general knowledge; log entry 5: PRESUMED,
unsafe). -/
def Kind.opcode : Kind → Nat
  | .add => 1
  | .mul => 2
  | .input => 3
  | .output => 4
  | .jmpTrue => 5
  | .jmpFalse => 6
  | .lessThan => 7
  | .equals => 8
  | .baseOffset => 9
  | .halt => 99

/-- The ten kinds in the order of R63. -/
def Kind.all : List Kind :=
  [.add, .mul, .input, .output, .jmpTrue, .jmpFalse, .lessThan, .equals, .baseOffset, .halt]

/-- The kind that an opcode selects, if it is one of the ten (R63, R67). -/
def Kind.ofOpcode (n : Nat) : Option Kind := Kind.all.find? fun k => k.opcode == n

/-- The parameter roles of R64, in parameter order. -/
def Kind.roles : Kind → List Role
  | .add => [.read, .read, .write]
  | .mul => [.read, .read, .write]
  | .input => [.write]
  | .output => [.read]
  | .jmpTrue => [.read, .read]
  | .jmpFalse => [.read, .read]
  | .lessThan => [.read, .read, .write]
  | .equals => [.read, .read, .write]
  | .baseOffset => [.read]
  | .halt => []

/-- `n` of R64: how many parameters, and so how many operand words. -/
def Kind.paramCount (k : Kind) : Nat := k.roles.length

/-- `L` of R64 and R73: the instruction's length in words, fixed by its opcode alone. -/
def Kind.length (k : Kind) : Nat := k.paramCount + 1

/-! ## Decoding the instruction word -/

/-- Why the decoder rejects an instruction word (R67 to R71). -/
inductive WordError where
  /-- The word is negative or its opcode is not one of the ten (R67, R68). -/
  | invalidOpcode
  /-- A mode digit is 3 to 9, or a digit above the last mode digit is not 0 (R69, R70). -/
  | invalidMode
  /-- A write parameter is in immediate mode (R71). -/
  | invalidWriteMode
  deriving DecidableEq, Repr

/-- Why `decode` reads no instruction from a list of words. -/
inductive DecodeError where
  /-- The first word is no legal instruction word. -/
  | word (e : WordError)
  /-- The list ends before the instruction does. The engine never meets this: it fetches the operand words
  from memory itself. -/
  | truncated
  deriving DecidableEq, Repr

/-- What one instruction word says: the kind and a mode per parameter. The modes of parameters the kind
does not have are position, the mode of an absent digit (R62). -/
structure Header where
  kind : Kind
  m0 : Mode
  m1 : Mode
  m2 : Mode
  deriving DecidableEq, Repr

/-- The mode of parameter `k`. -/
def Header.mode (h : Header) : Nat → Mode
  | 0 => h.m0
  | 1 => h.m1
  | 2 => h.m2
  | _ => .position

/-- Some write parameter of the header is in immediate mode (R71). -/
def Header.writesImmediate (h : Header) : Bool :=
  [0, 1, 2].any fun k => decide (h.kind.roles[k]? = some .write) && decide (h.mode k = .immediate)

/-- The conditions of R66 on the modes: 0 above the last parameter, and never 1 on a write parameter. -/
def Header.wf (h : Header) : Bool :=
  ([0, 1, 2].all fun k => decide (k < h.kind.paramCount) || decide (h.mode k = .position))
    && !h.writesImmediate

/-- The mode of parameter `k` as the digits of `n` give it; `none` for a digit 3 to 9 (R61, R69). -/
def modeAt (kind : Kind) (n k : Nat) : Option Mode :=
  if k < kind.paramCount then Mode.ofDigit (digit n (2 + k)) else some .position

/-- `decode(w)` of R75, with its priority: opcode, mode digits, surplus digits, write mode. -/
def decodeWord (w : Word) : Except WordError Header :=
  if w.toInt < 0 then .error .invalidOpcode
  else
    match Kind.ofOpcode (w.toNat % 100) with
    | none => .error .invalidOpcode
    | some kind =>
      match modeAt kind w.toNat 0, modeAt kind w.toNat 1, modeAt kind w.toNat 2 with
      | some m0, some m1, some m2 =>
        if w.toNat / 10 ^ (2 + kind.paramCount) ≠ 0 then .error .invalidMode
        else if (Header.mk kind m0 m1 m2).writesImmediate then .error .invalidWriteMode
        else .ok ⟨kind, m0, m1, m2⟩
      | _, _, _ => .error .invalidMode

/-- The instruction that a header and its operand words make (R60, R64). Operand words the kind does not
have are ignored. -/
def Header.instr (h : Header) (o0 o1 o2 : Word) : Instr :=
  match h.kind with
  | .add => .add ⟨h.m0, o0⟩ ⟨h.m1, o1⟩ ⟨h.m2, o2⟩
  | .mul => .mul ⟨h.m0, o0⟩ ⟨h.m1, o1⟩ ⟨h.m2, o2⟩
  | .input => .input ⟨h.m0, o0⟩
  | .output => .output ⟨h.m0, o0⟩
  | .jmpTrue => .jmpTrue ⟨h.m0, o0⟩ ⟨h.m1, o1⟩
  | .jmpFalse => .jmpFalse ⟨h.m0, o0⟩ ⟨h.m1, o1⟩
  | .lessThan => .lessThan ⟨h.m0, o0⟩ ⟨h.m1, o1⟩ ⟨h.m2, o2⟩
  | .equals => .equals ⟨h.m0, o0⟩ ⟨h.m1, o1⟩ ⟨h.m2, o2⟩
  | .baseOffset => .baseOffset ⟨h.m0, o0⟩
  | .halt => .halt

/-- Reads one instruction from the front of a list of words and returns the words after it (R60, R73). -/
def decode : List Word → Except DecodeError (Instr × List Word)
  | [] => .error .truncated
  | w :: ws =>
    match decodeWord w with
    | .error e => .error (.word e)
    | .ok h =>
      if ws.length < h.kind.paramCount then .error .truncated
      else .ok (h.instr (ws.getD 0 0) (ws.getD 1 0) (ws.getD 2 0), ws.drop h.kind.paramCount)

/-! ## Encoding -/

/-- The instruction word of a header: `OP + 100*m0 + 1000*m1 + 10000*m2` (R66). -/
def encodeWord (h : Header) : Word :=
  BitVec.ofNat 64 (h.kind.opcode + 100 * h.m0.digit + 1000 * h.m1.digit + 10000 * h.m2.digit)

/-- The header of an instruction. -/
def Instr.header : Instr → Header
  | .add a b dst => ⟨.add, a.mode, b.mode, dst.mode⟩
  | .mul a b dst => ⟨.mul, a.mode, b.mode, dst.mode⟩
  | .input dst => ⟨.input, dst.mode, .position, .position⟩
  | .output a => ⟨.output, a.mode, .position, .position⟩
  | .jmpTrue c target => ⟨.jmpTrue, c.mode, target.mode, .position⟩
  | .jmpFalse c target => ⟨.jmpFalse, c.mode, target.mode, .position⟩
  | .lessThan a b dst => ⟨.lessThan, a.mode, b.mode, dst.mode⟩
  | .equals a b dst => ⟨.equals, a.mode, b.mode, dst.mode⟩
  | .baseOffset a => ⟨.baseOffset, a.mode, .position, .position⟩
  | .halt => ⟨.halt, .position, .position, .position⟩

/-- The operand words of an instruction, in parameter order (R60, R65). -/
def Instr.operands : Instr → List Word
  | .add a b dst => [a.word, b.word, dst.word]
  | .mul a b dst => [a.word, b.word, dst.word]
  | .input dst => [dst.word]
  | .output a => [a.word]
  | .jmpTrue c target => [c.word, target.word]
  | .jmpFalse c target => [c.word, target.word]
  | .lessThan a b dst => [a.word, b.word, dst.word]
  | .equals a b dst => [a.word, b.word, dst.word]
  | .baseOffset a => [a.word]
  | .halt => []

/-- The words of an instruction: its instruction word, then its operand words (R60). -/
def encode (i : Instr) : List Word := encodeWord i.header :: i.operands

/-! ## The host's table words -/

/-- Word `k` of an instruction whose bits are `w`, 64 bits a word, the first word lowest; the bits at
and above `nbits` are 0 (log entry 13: DESIGN CHOICE, safe). -/
def tableWord (nbits w k : Nat) : Word := BitVec.ofNat 64 (w % 2 ^ nbits / 2 ^ (64 * k))

/-- The four words (the longest instruction, R60) of an instruction whose bits are `w`. -/
def tableWords (nbits w : Nat) : List Word :=
  [tableWord nbits w 0, tableWord nbits w 1, tableWord nbits w 2, tableWord nbits w 3]

/-- The instruction the decoder reads from an instruction whose bits are `w`. -/
def decodeTableWord (nbits w : Nat) : Option Instr :=
  match decode (tableWords nbits w) with
  | .error _ => none
  | .ok (i, _) => some i

end Sys2Proof
end

