-- ==== Sys2Proof/Machine/Ops.lean ====
section
/-! DEFINITION. The named operations over the state: memory (`spec/20_memory.md`), the address check, the
registers and queues, suspension and halting, and taking a fault (`spec/60_exceptions.md` R181). -/

namespace Sys2Proof.Machine

/-! ## Memory -/

/-- `MemRead(a, 1)` of R13: the word at `a`, 0 where nothing is listed (R42). -/
def Memory.read : Memory → Nat → Word
  | [], _ => 0
  | (b, w) :: m, a => if a = b then w else Memory.read m a

/-- Puts a word in front of the cells above it; a 0 is not listed. -/
def Memory.put (a : Nat) (v : Word) (m : Memory) : Memory := if v = 0 then m else (a, v) :: m

/-- `MemWrite(a, 1, v)` of R13, keeping the canonical form. -/
def Memory.write : Memory → Nat → Word → Memory
  | [], a, v => Memory.put a v []
  | (b, w) :: m, a, v =>
    if a < b then Memory.put a v ((b, w) :: m)
    else if a = b then Memory.put a v m
    else (b, w) :: Memory.write m a v

/-- Addresses rise strictly from `lo` on, and no listed word is 0. -/
def Memory.wfFrom : Nat → Memory → Bool
  | _, [] => true
  | lo, (a, v) :: m => decide (lo ≤ a) && decide (v ≠ 0) && Memory.wfFrom (a + 1) m

/-- The canonical form: addresses strictly rising, and no entry equal to what an unlisted cell reads as. -/
def Memory.wf (m : Memory) : Bool := Memory.wfFrom 0 m

/-- Every listed address is below `n`. -/
def Memory.below (n : Nat) (m : Memory) : Bool := m.all fun c => decide (c.1 < n)

/-- The memory in which the words of a program stand from address `a` on, and every other cell is 0 (R101). -/
def Memory.ofProgram : Nat → List Word → Memory
  | _, [] => []
  | a, w :: ws => Memory.put a w (Memory.ofProgram (a + 1) ws)

/-- The memory that holds the given cells, those outside `0 .. cells - 1` left out. -/
def Memory.ofCells (cells : Nat) : List (Nat × Word) → Memory
  | [] => []
  | (a, v) :: l =>
    if a < cells then Memory.write (Memory.ofCells cells l) a v else Memory.ofCells cells l

/-! ## Addresses -/

/-- `chk(a)` of R41: the address of an existing cell, or the fault. -/
def State.check (s : State) (a : Int) : Except Fault Nat :=
  if a < 0 then .error .negativeAddress
  else if (s.cfg.memCells : Int) ≤ a then .error .addressOutOfRange
  else .ok a.toNat

/-- `chk(a)`, then `MemRead(a, 1)`. -/
def State.readCell (s : State) (a : Int) : Except Fault Word :=
  match s.check a with
  | .error f => .error f
  | .ok n => .ok (s.mem.read n)

/-! ## Committing effects (R90) -/

/-- `MemWrite(a, 1, v)`. -/
def State.store (s : State) (a : Nat) (v : Word) : State := { s with mem := s.mem.write a v }

/-- The default advance of R91, an exact sum (R22). -/
def State.advance (s : State) (n : Int) : State := { s with ip := s.ip + n }

/-- `ip <- t` for a jump target (R143): any word, unchecked. -/
def State.jump (s : State) (t : Word) : State := { s with ip := t.toInt }

/-- `rb <- v`. -/
def State.setRb (s : State) (v : Word) : State := { s with rb := v }

/-- `INQ <- rest`, what is left of the queue after a pop. -/
def State.setInq (s : State) (rest : List Word) : State := { s with inq := rest }

/-- `OUT <- OUT ++ [v]`. -/
def State.emit (s : State) (v : Word) : State := { s with out := s.out ++ [v] }

/-! ## Queue capacities (R9, R25, R26) -/

/-- A queue of `n` values is within the capacity. -/
def withinCapacity (capacity : Option Nat) (n : Nat) : Bool :=
  match capacity with
  | none => true
  | some c => decide (n ≤ c)

/-- `len(OUT) = OUTQ_CAPACITY` of R151: one value more would not fit. -/
def State.outFull (s : State) : Bool := !withinCapacity s.cfg.outqCapacity (s.out.length + 1)

/-- The first values of a list, as many as the capacity holds. -/
def takeCapacity (capacity : Option Nat) (l : List Word) : List Word :=
  match capacity with
  | none => l
  | some c => l.take c

/-! ## Ending a run -/

/-- `halt`: the run ends in HALTED and nothing else changes (R144, R96). -/
def State.halt (s : State) : State := { s with engine := .halted }

/-- `pause`: the run ends in SUSPENDED and nothing else changes (R94). -/
def State.suspend (s : State) : State := { s with engine := .suspended }

/-- The bounds of `ip` (R21): `-2^63 .. 2^63`. -/
def boundIp (v : Int) : Int := max (-9223372036854775808) (min v 9223372036854775808)

/-- Memory, `ip`, `rb`, `INQ` and `OUT` become free values, each within the limits the spec sets for it
(R21, R25, R26, R41; log entry 3: DESIGN CHOICE, safe). -/
def State.unspecify (s : State) : State :=
  { s with
    mem := Memory.ofCells s.cfg.memCells (Config.freeCells s.freeCount)
    ip := boundIp (Config.freeIp s.freeCount)
    rb := Config.freeRb s.freeCount
    inq := takeCapacity s.cfg.inqCapacity (Config.freeInq s.freeCount)
    out := takeCapacity s.cfg.outqCapacity (Config.freeOut s.freeCount)
    freeCount := s.freeCount + 1 }

/-- Taking a fault: the fault entry of R93 and R181, from the state `s` at which the faulting step started.
The step commits nothing; `STATE`, `FAULT_CODE` and `FAULT_IP` are written; "The memory, `ip`, `rb`, `INQ`
and `OUT` are thereafter unspecified". There is no return from a fault (R182). -/
def State.takeFault (s : State) (f : Fault) : State :=
  { s.unspecify with engine := .faulted, fault := some f, faultIp := s.ip }

/-- An INPUT that finds the queue empty (R84): `pause`, or `InputUnderflow` in a strict RUN (R97). -/
def State.starve (s : State) : State :=
  if s.strict then s.takeFault .inputUnderflow else s.suspend

/-- How an instruction ends: its committed state, or the fault it raised, taken from the state `s` at which
it started (R80, R90). -/
def State.settle (s : State) : Except Fault State → Host.Outcome State Fault Refusal
  | .ok t => .next t
  | .error f => .next (s.takeFault f)

/-! ## The status register (R29, R30) -/

/-- The number of a fault in `FAULT_CODE` (R171). -/
def Fault.code : Fault → Nat
  | .invalidOpcode => 1
  | .invalidWriteMode => 2
  | .inputUnderflow => 3
  | .negativeAddress => 4
  | .invalidMode => 5
  | .addressOutOfRange => 6
  | .overflow => 7
  | .outputFull => 8

/-- The number of an engine state in `STATUS` bits [2:0] (R29). -/
def EngineState.code : EngineState → Nat
  | .unloaded => 0
  | .ready => 1
  | .running => 2
  | .suspended => 3
  | .halted => 4
  | .faulted => 5

/-- `FAULT_CODE`: 0 for no fault (R30, R171). -/
def State.faultCode (s : State) : Nat :=
  match s.fault with
  | none => 0
  | some f => f.code

/-- `DONE`: 1 exactly when `STATE` is HALTED (R29). -/
def State.done (s : State) : Nat := if s.engine = .halted then 1 else 0

/-- The `STATUS` word of R29: `STATE` in bits [2:0], `DONE` in bit 3, `FAULT_CODE` in bits [11:8]; every
other bit is hardwired 0. -/
def State.status (s : State) : Word :=
  BitVec.ofNat 64 (s.engine.code + 8 * s.done + 256 * s.faultCode)

/-- `lastout()` of R106; `none` is the result NONE. -/
def State.lastOut (s : State) : Option Word := s.out.getLast?

end Sys2Proof.Machine
end

