-- ==== Sys2Proof/Machine/Operands.lean ====
section
/-! DEFINITION. Operand resolution: the operand forms of `spec/40_engine.md` R86 and R87 in every
addressing mode. -/

namespace Sys2Proof.Machine

/-- The address a parameter names: the operand word in position mode, the exact sum `rb + op` in relative
mode (R43), none in immediate mode. -/
def State.paramAddress (s : State) (p : Param) : Option Int :=
  match p.mode with
  | .position => some p.word.toInt
  | .immediate => none
  | .relative => some (s.rb.toInt + p.word.toInt)

/-- `rd(k)` of R86. -/
def State.readParam (s : State) (p : Param) : Except Fault Word :=
  match s.paramAddress p with
  | none => .ok p.word
  | some a => s.readCell a

/-- `wa(k)` of R87. Decode never lets immediate mode reach it; it would be `InvalidWriteMode`
(log entry 12: DESIGN CHOICE, safe). -/
def State.writeAddr (s : State) (p : Param) : Except Fault Nat :=
  match s.paramAddress p with
  | none => .error .invalidWriteMode
  | some a => s.check a

end Sys2Proof.Machine
end

