-- ==== Sys2Proof/Machine/Arith.lean ====
section
/-! DEFINITION. ADD and MUL (`spec/41_arithmetic.md`), and the shape they share with the comparisons. -/

namespace Sys2Proof.Machine

/-- Stages 5 to 8 of R92 for the instructions of the form `dst = f(a, b)`: both read parameters in order,
then the address of `dst`, then the result, then the one write and the advance by 4 (R88 to R91). -/
def State.storeBinary (s : State) (f : Int → Int → Except Fault Word) (a b dst : Param) :
    Except Fault State := do
  let x ← s.readParam a
  let y ← s.readParam b
  let d ← s.writeAddr dst
  let r ← f x.toInt y.toInt
  .ok ((s.store d r).advance 4)

/-- ADD (R120). -/
def execAdd (a b dst : Param) (s : State) : Host.Outcome State Fault Refusal :=
  s.settle (s.storeBinary (fun x y => narrow (x + y)) a b dst)

/-- MUL (R121). -/
def execMul (a b dst : Param) (s : State) : Host.Outcome State Fault Refusal :=
  s.settle (s.storeBinary (fun x y => narrow (x * y)) a b dst)

end Sys2Proof.Machine
end

