-- ==== Sys2Proof/Machine/Base.lean ====
section
/-! DEFINITION. BASE_OFFSET (`spec/45_base.md`). -/

namespace Sys2Proof.Machine

/-- Stages 5 to 8 of R92 for a BASE_OFFSET: the parameter is resolved with the old `rb`, and the exact sum
becomes the new one. -/
def State.offsetBase (s : State) (a : Param) : Except Fault State := do
  let x ← s.readParam a
  let r ← narrow (s.rb.toInt + x.toInt)
  .ok ((s.setRb r).advance 2)

/-- BASE_OFFSET (R160). -/
def execBaseOffset (a : Param) (s : State) : Host.Outcome State Fault Refusal := s.settle (s.offsetBase a)

end Sys2Proof.Machine
end

