-- ==== Sys2Proof/Machine/Compare.lean ====
section
/-! DEFINITION. LESS_THAN and EQUALS (`spec/42_compare.md`). -/

namespace Sys2Proof.Machine

/-- LESS_THAN (R130): a signed comparison. -/
def execLessThan (a b dst : Param) (s : State) : Host.Outcome State Fault Refusal :=
  s.settle (s.storeBinary (fun x y => .ok (boolWord (decide (x < y)))) a b dst)

/-- EQUALS (R131). -/
def execEquals (a b dst : Param) (s : State) : Host.Outcome State Fault Refusal :=
  s.settle (s.storeBinary (fun x y => .ok (boolWord (decide (x = y)))) a b dst)

end Sys2Proof.Machine
end

