-- ==== Sys2Proof/Machine/Control.lean ====
section
/-! DEFINITION. JMP_TRUE, JMP_FALSE and HALT (`spec/43_control.md`). -/

namespace Sys2Proof.Machine

/-- Stages 5 to 8 of R92 for a conditional jump: both parameters are resolved whether or not the jump is
taken (R141); a taken jump sets `ip` to the target unchecked (R143), and otherwise `ip` advances by 3. -/
def State.jumpWhen (s : State) (taken : Word → Bool) (c target : Param) : Except Fault State := do
  let x ← s.readParam c
  let t ← s.readParam target
  if taken x then .ok (s.jump t) else .ok (s.advance 3)

/-- JMP_TRUE (R141). -/
def execJmpTrue (c target : Param) (s : State) : Host.Outcome State Fault Refusal :=
  s.settle (s.jumpWhen holds c target)

/-- JMP_FALSE (R142). -/
def execJmpFalse (c target : Param) (s : State) : Host.Outcome State Fault Refusal :=
  s.settle (s.jumpWhen (fun x => !holds x) c target)

/-- HALT (R144): `ip` stays at the HALT word. -/
def execHalt (s : State) : Host.Outcome State Fault Refusal := .next s.halt

end Sys2Proof.Machine
end

