-- ==== Sys2Proof/Machine/InOut.lean ====
section
/-! DEFINITION. INPUT and OUTPUT (`spec/44_io.md`). -/

namespace Sys2Proof.Machine

/-- Stages 6 to 8 of R92 for an INPUT that found the queue `v :: rest`: the head is stored and popped. -/
def State.inputTo (s : State) (v : Word) (rest : List Word) (dst : Param) : Except Fault State := do
  let d ← s.writeAddr dst
  .ok (((s.store d v).setInq rest).advance 2)

/-- INPUT (R150). The empty queue is met before the destination is resolved (R84). -/
def execInput (dst : Param) (s : State) : Host.Outcome State Fault Refusal :=
  match s.inq with
  | [] => .next s.starve
  | v :: rest => s.settle (s.inputTo v rest dst)

/-- Stages 5 to 8 of R92 for an OUTPUT: the value is resolved, then the room in `OUT` is tested (R180). -/
def State.outputParam (s : State) (a : Param) : Except Fault State := do
  let x ← s.readParam a
  if s.outFull then .error .outputFull else .ok ((s.emit x).advance 2)

/-- OUTPUT (R151). -/
def execOutput (a : Param) (s : State) : Host.Outcome State Fault Refusal := s.settle (s.outputParam a)

end Sys2Proof.Machine
end

