-- ==== Sys2Proof/Machine/Fetch.lean ====
section
/-! DEFINITION. What the engine does before an instruction's own meaning: stages 1 to 4 of
`spec/40_engine.md` R92, and waiting for the host where no RUN is in progress (R95). -/

namespace Sys2Proof.Machine

/-- The fault a rejected instruction word raises (R67 to R71). -/
def faultOfWord : WordError → Fault
  | .invalidOpcode => .invalidOpcode
  | .invalidMode => .invalidMode
  | .invalidWriteMode => .invalidWriteMode

/-- Stages 1 and 2 (R82, R83): fetch the word at `ip` and decode it. -/
def State.fetchHeader (s : State) : Except Fault Header := do
  let w ← s.readCell s.ip
  match decodeWord w with
  | .error e => .error (faultOfWord e)
  | .ok h => .ok h

/-- Operand word `k`, at the exact address `ip + 1 + k` (R85); nothing is fetched for a parameter that the
kind does not have. -/
def State.operandWord (s : State) (kind : Kind) (k : Nat) : Except Fault Word :=
  if k < kind.paramCount then s.readCell (s.ip + 1 + k) else .ok 0

/-- Stage 4 (R85): the operand words in ascending order, and with them the instruction. -/
def State.fetchOperands (s : State) (h : Header) : Except Fault Instr := do
  let o0 ← s.operandWord h.kind 0
  let o1 ← s.operandWord h.kind 1
  let o2 ← s.operandWord h.kind 2
  .ok (h.instr o0 o1 o2)

/-- What one step comes to before an instruction's own meaning. -/
inductive Action where
  /-- The step is over, and this is the state it leaves. -/
  | finish (t : State)
  /-- The fetched instruction is to be executed. -/
  | execute (i : Instr)
  deriving DecidableEq, Repr

/-- Stages 1 to 4 of R92, in that order: the empty queue of an INPUT is met after decode and before any
operand word is read (R84). -/
def State.fetch (s : State) : Action :=
  match s.fetchHeader with
  | .error f => .finish (s.takeFault f)
  | .ok h =>
    if h.kind = .input ∧ s.inq = [] then .finish s.starve
    else
      match s.fetchOperands h with
      | .error f => .finish (s.takeFault f)
      | .ok i => .execute i

/-- The engine's next action. It takes a step only while a RUN is in progress; in every other state it does
nothing by itself and waits for a transaction (R95, R184; log entry 6: DEDUCED, safe). -/
def State.nextAction (s : State) : Action :=
  match s.engine with
  | .unloaded => .finish s
  | .ready => .finish s
  | .running => s.fetch
  | .suspended => .finish s
  | .halted => .finish s
  | .faulted => .finish s

/-- Stores consecutive words from address `a` on, those that would lie past the last cell left out. -/
def Memory.writeWords (cells : Nat) : Memory → Nat → List Word → Memory
  | m, _, [] => m
  | m, a, w :: ws =>
    Memory.writeWords cells (if a < cells then Memory.write m a w else m) (a + 1) ws

/-- Memory with the given words at `ip`, where there is a cell at `ip`. -/
def State.memWithWords (s : State) (ws : List Word) : Memory :=
  match s.check s.ip with
  | .error _ => s.mem
  | .ok a => Memory.writeWords s.cfg.memCells s.mem a ws

/-- The state in which the given words stand at `ip` and a RUN is in progress, so that the next step fetches
them (log entry 7). FAULT_CODE is cleared because it is non-zero only in FAULTED (R30). -/
def State.placeWords (s : State) (ws : List Word) : State :=
  { s with mem := s.memWithWords ws, engine := .running, fault := none }

end Sys2Proof.Machine
end

