-- ==== Sys2Proof/Machine/Step.lean ====
section
/-! DEFINITION. One step of the engine (`spec/40_engine.md` R80, R92), and the placing of one instruction
where the next step fetches. -/

namespace Sys2Proof.Machine

/-- One step: the stages before the instruction's own meaning, then that meaning. -/
def step (s : State) : Host.Outcome State Fault Refusal :=
  match s.nextAction with
  | .finish t => .next t
  | .execute i => exec i s

/-- `s` with the instruction whose bits are `w` stored at `ip` and a RUN in progress (log entry 7: DESIGN CHOICE,
safe). -/
def State.withFetchWord (s : State) (nbits w : Nat) : State := s.placeWords (tableWords nbits w)

end Sys2Proof.Machine
end

