-- ==== Sys2Proof/Machine/Transact.lean ====
section
/-! DEFINITION. The host transactions of `spec/40_engine.md` R95 to R109: LOAD, RUN with its loop, the
queues, PEEK and POKE, STATUS and FAULT_IP, and `get_output`. They act between runs; `step` never calls
them (log entry 11: DESIGN CHOICE, safe). -/

namespace Sys2Proof.Machine

/-- The transactions by which the host drives the block (R96, R101 to R105). -/
inductive Transaction where
  /-- LOAD(P, I) (R101). -/
  | load (program inputs : List Word)
  /-- RUN(vs, strict) (R96). -/
  | run (inputs : List Word) (strict : Bool)
  /-- PUSH_INPUT(v) (R102). -/
  | pushInput (v : Word)
  /-- OUT_COUNT (R103). -/
  | outCount
  /-- OUT_READ(i) (R103). -/
  | outRead (i : Int)
  /-- PEEK(a) (R104). -/
  | peek (a : Int)
  /-- POKE(a, v) (R104). -/
  | poke (a : Int) (v : Word)
  /-- STATUS (R105). -/
  | status
  /-- FAULT_IP (R105). -/
  | faultIp
  deriving DecidableEq, Repr

/-- What an accepted transaction returns. -/
inductive Result where
  /-- LOAD, PUSH_INPUT and POKE return no value. -/
  | done
  /-- The word of OUT_READ, PEEK or STATUS. -/
  | word (w : Word)
  /-- The number of OUT_COUNT. -/
  | count (n : Nat)
  /-- The 65-bit value of FAULT_IP. -/
  | address (a : Int)
  /-- RUN returned `(HALTED, lastout())`; `none` is NONE (R106). -/
  | halted (last : Option Word)
  /-- RUN returned `(SUSPENDED, lastout())`. -/
  | suspended (last : Option Word)
  /-- RUN returned `(FAULTED, code)`. -/
  | faulted (code : Nat)
  deriving DecidableEq, Repr

/-- How the block answers a transaction. -/
inductive Reply where
  /-- The transaction is refused and changes no state (R109). -/
  | refused
  /-- The transaction is accepted, with its result and the state after it. -/
  | accepted (r : Result) (t : State)
  /-- The RUN has not ended within the steps it was followed for: not an outcome (R100). -/
  | notEnded
  deriving DecidableEq, Repr

/-- The states READY, SUSPENDED and HALTED, in which the host may use the machine (R109). -/
def EngineState.usable : EngineState → Bool
  | .unloaded => false
  | .ready => true
  | .running => false
  | .suspended => true
  | .halted => true
  | .faulted => false

/-- The table of R109: which transaction is accepted in which state. -/
def Transaction.acceptedIn (t : Transaction) (e : EngineState) : Bool :=
  match t with
  | .load _ _ => decide (e ≠ .running)
  | .run _ _ => e.usable
  | .pushInput _ => e.usable
  | .outCount => e.usable
  | .outRead _ => e.usable
  | .peek _ => e.usable
  | .poke _ _ => e.usable
  | .status => decide (e ≠ .running)
  | .faultIp => decide (e = .faulted)

/-! ## LOAD and the input queue -/

/-- The effects of LOAD (R101, the "after LOAD" column of R35). `FAULT_IP` is left unspecified. -/
def State.loaded (s : State) (program inputs : List Word) : State :=
  { cfg := s.cfg
    mem := Memory.ofProgram 0 program
    ip := 0
    rb := 0
    inq := inputs
    out := []
    engine := .ready
    fault := none
    faultIp := (Config.freeFaultIp s.freeCount).toInt
    strict := false
    freeCount := s.freeCount + 1 }

/-- A machine at power-on (R35, R196): UNLOADED, the queues empty, and the rest unspecified. -/
def State.powerOn (cfg : Config) : State :=
  { cfg := cfg
    mem := Memory.ofCells cfg.memCells (Config.freeCells 0)
    ip := boundIp (Config.freeIp 0)
    rb := Config.freeRb 0
    inq := []
    out := []
    engine := .unloaded
    fault := none
    faultIp := (Config.freeFaultIp 0).toInt
    strict := false
    freeCount := 1 }

/-- The queue has room for `n` more values (R25). -/
def State.inqRoom (s : State) (n : Nat) : Bool :=
  withinCapacity s.cfg.inqCapacity (s.inq.length + n)

/-- Values appended to the tail of `INQ`, in order (R96, R102). -/
def State.pushInputs (s : State) (vs : List Word) : State := { s with inq := s.inq ++ vs }

/-! ## RUN -/

/-- What RUN does before its loop (R96): the inputs are appended, and a machine that has not HALTED is
RUNNING, in the mode of this RUN (R97). -/
def State.startRun (s : State) (vs : List Word) (strict : Bool) : State :=
  let t := s.pushInputs vs
  if t.engine = .halted then t else { t with engine := .running, strict := strict }

/-- The loop of R96 for at most `fuel` steps: the state in which the run ended, or `none` if it has not
ended yet (R100). -/
def runLoop : Nat → State → Option State
  | 0, s => if s.engine = .running then none else some s
  | fuel + 1, s =>
    if s.engine = .running then
      match step s with
      | .next t => runLoop fuel t
      | .fault _ => none
      | .refused _ => none
    else some s

/-- The run from `s` ends in `t` (R100). -/
def RunEnds (s t : State) : Prop := ∃ fuel, runLoop fuel s = some t

/-- The run from `s` never ends: `stuck` of U10 (R100). -/
def RunHangs (s : State) : Prop := ∀ fuel, runLoop fuel s = none

/-- What RUN returns for the state in which its loop ended (R96). -/
def State.runResult (s : State) : Result :=
  match s.engine with
  | .halted => .halted s.lastOut
  | .suspended => .suspended s.lastOut
  | .unloaded => .faulted s.faultCode
  | .ready => .faulted s.faultCode
  | .running => .faulted s.faultCode
  | .faulted => .faulted s.faultCode

/-- RUN followed for at most `fuel` steps. -/
def State.performRun (s : State) (fuel : Nat) (vs : List Word) (strict : Bool) : Reply :=
  if s.inqRoom vs.length then
    match runLoop fuel (s.startRun vs strict) with
    | some t => .accepted t.runResult t
    | none => .notEnded
  else .refused

/-! ## The other transactions -/

/-- LOAD, refused where the program or the inputs do not fit (R101). -/
def State.performLoad (s : State) (program inputs : List Word) : Reply :=
  if program.length ≤ s.cfg.memCells ∧ withinCapacity s.cfg.inqCapacity inputs.length = true then
    .accepted .done (s.loaded program inputs)
  else .refused

/-- PUSH_INPUT, refused where the queue is full (R102). -/
def State.performPush (s : State) (v : Word) : Reply :=
  if s.inqRoom 1 then .accepted .done (s.pushInputs [v]) else .refused

/-- OUT_READ, refused for an index outside `0 .. len(OUT) - 1` (R103). -/
def State.performOutRead (s : State) (i : Int) : Reply :=
  if i < 0 then .refused
  else
    match s.out[i.toNat]? with
    | none => .refused
    | some w => .accepted (.word w) s

/-- PEEK, refused outside `0 .. MEM_CELLS - 1` (R104). -/
def State.performPeek (s : State) (a : Int) : Reply :=
  match s.readCell a with
  | .error _ => .refused
  | .ok w => .accepted (.word w) s

/-- POKE, refused outside `0 .. MEM_CELLS - 1` (R104). -/
def State.performPoke (s : State) (a : Int) (v : Word) : Reply :=
  match s.check a with
  | .error _ => .refused
  | .ok n => .accepted .done (s.store n v)

/-- A transaction; a RUN is followed for at most `fuel` steps. -/
def transact (fuel : Nat) (t : Transaction) (s : State) : Reply :=
  if t.acceptedIn s.engine then
    match t with
    | .load program inputs => s.performLoad program inputs
    | .run inputs strict => s.performRun fuel inputs strict
    | .pushInput v => s.performPush v
    | .outCount => .accepted (.count s.out.length) s
    | .outRead i => s.performOutRead i
    | .peek a => s.performPeek a
    | .poke a v => s.performPoke a v
    | .status => .accepted (.word s.status) s
    | .faultIp => .accepted (.address s.faultIp) s
  else .refused

/-- What `get_output` returns. -/
inductive OutputReply where
  | refused
  /-- `get_output(1)`: `lastout()`. -/
  | last (w : Option Word)
  /-- `get_output(n)` for `2 <= n`: the last `n` values, oldest first. -/
  | lastN (ws : List Word)
  deriving DecidableEq, Repr

/-- The host-side composition `get_output(n)` of R107, refused wherever OUT_READ is (R103). -/
def getOutput (n : Int) (s : State) : OutputReply :=
  if s.engine.usable = false then .refused
  else if n = 1 then .last s.lastOut
  else if 2 ≤ n ∧ n ≤ s.out.length then .lastN (s.out.drop (s.out.length - n.toNat))
  else .refused

end Sys2Proof.Machine
end

