-- ==== Sys2Proof/Safety.lean ====
section
/-! DEFINITION. What counts as a sound state of the machine, and the vocabulary the statements use: how an
instruction completes, and what it leaves unchanged. -/

namespace Sys2Proof.Machine

/-- The invariant of the machine: every field is within the limits the spec sets for it. -/
structure State.Inv (s : State) : Prop where
  /-- The parameters are in the legal ranges of R9. -/
  cfg_wf : s.cfg.wf = true
  /-- Memory is in canonical form, so that equal memories are equal data. -/
  mem_wf : s.mem.wf = true
  /-- Only cells `0 .. MEM_CELLS - 1` exist (R41). -/
  mem_below : s.mem.below s.cfg.memCells = true
  /-- `ip` is in the range of R21. -/
  ip_range : -9223372036854775808 ≤ s.ip ∧ s.ip ≤ 9223372036854775808
  /-- `FAULT_IP` fits its 65-bit signed register (R30). -/
  faultIp_range : -18446744073709551616 ≤ s.faultIp ∧ s.faultIp < 18446744073709551616
  /-- `INQ` holds at most `INQ_CAPACITY` values (R25). -/
  inq_fits : withinCapacity s.cfg.inqCapacity s.inq.length = true
  /-- `OUT` holds at most `OUTQ_CAPACITY` values (R26). -/
  out_fits : withinCapacity s.cfg.outqCapacity s.out.length = true
  /-- `FAULT_CODE` is non-zero exactly when `STATE` is FAULTED (R30). -/
  fault_iff : s.fault.isSome = true ↔ s.engine = .faulted

/-- Everything but memory, `ip`, `rb`, the queues and `STATE` is the same: the parameters, the fault record
and the model's own fields. -/
structure SameRecord (s t : State) : Prop where
  cfg : t.cfg = s.cfg
  fault : t.fault = s.fault
  faultIp : t.faultIp = s.faultIp
  strict : t.strict = s.strict
  freeCount : t.freeCount = s.freeCount

/-- Every cell reads the same. -/
def SameMemory (s t : State) : Prop := ∀ a, t.mem.read a = s.mem.read a

/-- Every cell but the one at `d` reads the same. -/
def SameMemoryBut (d : Nat) (s t : State) : Prop := ∀ a, a ≠ d → t.mem.read a = s.mem.read a

/-- `t` is `s` after the entry of some fault, and of nothing else (R170, R181). -/
def Faults (s t : State) : Prop := ∃ f, t = s.takeFault f

/-- The instruction takes the fault `f`: it ends in the fault entry from the state it started in, so it
commits none of its effects (R90, R181). -/
def TakesFault (i : Instr) (s : State) (f : Fault) : Prop := exec i s = .next (s.takeFault f)

/-- Of an instruction with two read parameters and a write parameter: the first parameter whose address
fails `chk`, in the order `a`, `b`, `dst`, gives the fault (R88). -/
structure StoringOperandFaults (i : Instr) (s : State) (a b dst : Param) : Prop where
  first : ∀ f, s.readParam a = .error f → TakesFault i s f
  second : ∀ x f, s.readParam a = .ok x → s.readParam b = .error f → TakesFault i s f
  third : ∀ x y f, s.readParam a = .ok x → s.readParam b = .ok y → s.writeAddr dst = .error f →
    TakesFault i s f

/-- Of an instruction with two read parameters: the same, whether or not a jump is taken (R88, R141). -/
structure ReadingOperandFaults (i : Instr) (s : State) (a b : Param) : Prop where
  first : ∀ f, s.readParam a = .error f → TakesFault i s f
  second : ∀ x f, s.readParam a = .ok x → s.readParam b = .error f → TakesFault i s f

/-- `f` is the fault of the first parameter that cannot be resolved, in the order `a`, `b`, `dst` (R88): its
address fails `chk`, or it is a write parameter in immediate mode (which no decoded instruction has). -/
def StoringOperandFails (s : State) (a b dst : Param) (f : Fault) : Prop :=
  s.readParam a = .error f ∨
  (∃ x, s.readParam a = .ok x ∧ s.readParam b = .error f) ∨
  (∃ x y, s.readParam a = .ok x ∧ s.readParam b = .ok y ∧ s.writeAddr dst = .error f)

/-- `i` is a jump whose condition holds in `s` (R140): a JMP_TRUE with a non-zero condition or a JMP_FALSE with
the condition 0 (the spec's decision D9; log entry 5: PRESUMED, unsafe). -/
def JumpTaken (s : State) (i : Instr) : Prop :=
  ∃ c target x, s.readParam c = .ok x ∧ ((i = .jmpTrue c target ∧ x ≠ 0) ∨ (i = .jmpFalse c target ∧ x = 0))

/-- The words at `ip, ip + 1, …` are those of the list. -/
def WordsAtIp (s : State) (ws : List Word) : Prop :=
  ∀ (k : Nat) (w : Word), ws[k]? = some w → s.readCell (s.ip + k) = .ok w

/-- The word at `ip` exists and decodes to the header `h` (stages 1 and 2 of R92). -/
def Fetches (s : State) (h : Header) : Prop := ∃ w, s.readCell s.ip = .ok w ∧ decodeWord w = .ok h

end Sys2Proof.Machine
end

