-- ==== Sys2Proof/Certificates/Slice0/Obligations.lean ====
section
/-! DEFINITION. The statements for the provers. Each docstring names the rules of `spec/` it formalises. -/

open Sys2Proof Sys2Proof.Machine

/-! ## Encoding -/

/-- Decode and encode agree (R60, R66, R75): from the words of a well-formed instruction, whatever words
follow them, the decoder reads that instruction, with every operand, and leaves the words that follow. -/
def Obligations.DecodeOfEncodeIsTheInstruction : Prop :=
  ∀ (i : Instr) (rest : List Word), i.wf = true → decode (encode i ++ rest) = .ok (i, rest)

/-- The eighteen legal ADD words of the table of R66. -/
def Sys2Proof.legalAddWords : List Nat :=
  [1, 101, 201, 1001, 1101, 1201, 2001, 2101, 2201, 20001, 20101, 20201, 21001, 21101, 21201, 22001, 22101,
    22201]

/-- The table of R66, row by row. -/
def Sys2Proof.legalWords : Kind → List Nat
  | .add => legalAddWords
  | .mul => legalAddWords.map (· + 1)
  | .lessThan => legalAddWords.map (· + 6)
  | .equals => legalAddWords.map (· + 7)
  | .input => [3, 203]
  | .output => [4, 104, 204]
  | .jmpTrue => [5, 105, 205, 1005, 1105, 1205, 2005, 2105, 2205]
  | .jmpFalse => [6, 106, 206, 1006, 1106, 1206, 2006, 2106, 2206]
  | .baseOffset => [9, 109, 209]
  | .halt => [99]

/-- R66: the decoder accepts a word exactly when it has the form the rule gives, it then reads the kind and
the modes of that form; the words of a kind are exactly the row of the table, 99 words in all; every other
word raises a decode fault when it is fetched. The rule's count is the spec's own inference ("That gives 99
legal words [derived: ...]"), and the opcodes 5 to 9 are its decision D4 (log entry 5). -/
def Obligations.LegalWordsAreTheTable : Prop :=
  (∀ (w : Word) (h : Header), decodeWord w = .ok h ↔
      h.wf = true ∧
        w.toInt = h.kind.opcode + 100 * h.m0.digit + 1000 * h.m1.digit + 10000 * h.m2.digit) ∧
  (∀ (w : Word) (k : Kind), (∃ h, decodeWord w = .ok h ∧ h.kind = k) ↔
      ∃ n ∈ legalWords k, w.toInt = (n : Int)) ∧
  (Kind.all.map fun k => (legalWords k).length).sum = 99 ∧
  (∀ (s : State) (w : Word), s.engine = .running → s.readCell s.ip = .ok w → (∀ h, decodeWord w ≠ .ok h) →
    ∃ f ∈ [Fault.invalidOpcode, Fault.invalidMode, Fault.invalidWriteMode], step s = .next (s.takeFault f))

/-- R67: a word whose low two decimal digits are not one of the ten opcodes raises `InvalidOpcode` when it is
fetched. Nothing is assumed about the words after it. That 5 to 9 are among the ten is the spec's decision D4,
from general knowledge (log entry 5: PRESUMED). -/
def Obligations.UnknownOpcodesFault : Prop :=
  ∀ (s : State) (w : Word), s.engine = .running → s.readCell s.ip = .ok w → 0 ≤ w.toInt →
    w.toInt % 100 ∉ ([1, 2, 3, 4, 5, 6, 7, 8, 9, 99] : List Int) →
    step s = .next (s.takeFault .invalidOpcode)

/-- R173 with R71: a write parameter whose mode digit is 1, in a word that no other rule rejects, raises
`InvalidWriteMode` at decode: nothing is assumed about the operand words or, for INPUT, the queue. -/
def Obligations.ImmediateWriteParametersFault : Prop :=
  ∀ (s : State) (w : Word) (kind : Kind), s.engine = .running → s.readCell s.ip = .ok w → 0 ≤ w.toInt →
    w.toInt % 100 = kind.opcode → (∀ k < kind.paramCount, digit w.toNat (2 + k) ≤ 2) →
    w.toNat < 10 ^ (2 + kind.paramCount) →
    (∃ k, kind.roles[k]? = some .write ∧ digit w.toNat (2 + k) = 1) →
    step s = .next (s.takeFault .invalidWriteMode)

/-- The spec's own decisions D5, D6 and D7 ("A negative word fetched as an instruction word raises
`InvalidOpcode`", R68; "whose value is 3 to 9 raises `InvalidMode`", R69; "a digit above the last parameter's
mode digit", R70): a negative word, a mode digit 3 to 9 and a surplus digit fault when the word is fetched;
`InvalidMode` comes before `InvalidWriteMode` (D11). -/
def Obligations.NegativeAndMisModedWordsFault : Prop :=
  ∀ (s : State) (w : Word), s.engine = .running → s.readCell s.ip = .ok w →
    (w.toInt < 0 → step s = .next (s.takeFault .invalidOpcode)) ∧
    (∀ kind : Kind, 0 ≤ w.toInt → w.toInt % 100 = kind.opcode →
      (∃ k < kind.paramCount, 3 ≤ digit w.toNat (2 + k)) ∨ 10 ^ (2 + kind.paramCount) ≤ w.toNat →
      step s = .next (s.takeFault .invalidMode))

/-- Words written out from the encoding of R61, R63 and R64, one or more of each family, and what they
stand for. The opcodes 6, 7 and 9 of the words 1206, 21107 and 209 are the spec's decision D4, from general
knowledge (log entry 5: PRESUMED). -/
def Obligations.SpecWordsDecode : Prop :=
  decode [1002, 4, 3, 4] = .ok (.mul ⟨.position, 4⟩ ⟨.immediate, 3⟩ ⟨.position, 4⟩, []) ∧
  decode [1101, 100, -1, 4] = .ok (.add ⟨.immediate, 100⟩ ⟨.immediate, -1⟩ ⟨.position, 4⟩, []) ∧
  decode [21107, -5, 3, 9] = .ok (.lessThan ⟨.immediate, -5⟩ ⟨.immediate, 3⟩ ⟨.relative, 9⟩, []) ∧
  decode [1206, 0, 16] = .ok (.jmpFalse ⟨.relative, 0⟩ ⟨.immediate, 16⟩, []) ∧
  decode [203, -3, 99] = .ok (.input ⟨.relative, -3⟩, [99]) ∧
  decode [104, 1125899906842624] = .ok (.output ⟨.immediate, 1125899906842624⟩, []) ∧
  decode [209, 0] = .ok (.baseOffset ⟨.relative, 0⟩, []) ∧
  decode [99] = .ok (.halt, [])

/-! ## One step -/

/-- R92: while a RUN is in progress and the words at `ip` decode to an instruction, the step is that
instruction's own meaning at that state; nothing is added around it (`ip` is moved by the meaning). -/
def Obligations.StepRunsTheDecodedInstruction : Prop :=
  ∀ (s : State) (ws rest : List Word) (i : Instr), s.engine = .running → WordsAtIp s ws →
    decode ws = .ok (i, rest) → step s = exec i s

/-- R81: a step of a RUN always completes, with one of four outcomes: the run goes on; a HALT was executed;
an INPUT of a non-strict RUN found the queue empty and changed nothing but `STATE` (R94); or a fault was
taken, from the state the step started in (R80, R93). -/
def Obligations.StepHasOneOfFourOutcomes : Prop :=
  ∀ s : State, s.engine = .running → ∃ t, step s = .next t ∧
    ((t.engine = .running ∧ ∃ i, s.nextAction = .execute i) ∨
      (t = { s with engine := .halted } ∧ s.nextAction = .execute .halt) ∨
      (t = { s with engine := .suspended } ∧ s.inq = [] ∧ s.strict = false ∧
        ∃ h, Fetches s h ∧ h.kind = .input) ∨
      (∃ f, t = s.takeFault f))

/-- R95, R184: with no RUN in progress the engine does nothing by itself. -/
def Obligations.EngineIdlesUnlessRunning : Prop :=
  ∀ s : State, s.engine ≠ .running → step s = .next s

/-- R82: the fetch checks `ip` as an address; a cell that reads 0 raises `InvalidOpcode`. -/
def Obligations.FetchFaults : Prop :=
  ∀ s : State, s.engine = .running →
    (s.ip < 0 → step s = .next (s.takeFault .negativeAddress)) ∧
    ((s.cfg.memCells : Int) ≤ s.ip → step s = .next (s.takeFault .addressOutOfRange)) ∧
    (0 ≤ s.ip → s.ip < s.cfg.memCells → s.mem.read s.ip.toNat = 0 →
      step s = .next (s.takeFault .invalidOpcode))

/-- R174: a step of an INPUT with the queue empty raises `InputUnderflow` in a strict RUN, and in a non-strict
RUN is the suspension, not a fault. Nothing is assumed about the operand word, which stage 3 precedes. -/
def Obligations.EmptyQueueEndsTheStep : Prop :=
  ∀ (s : State) (h : Header), s.engine = .running → Fetches s h → h.kind = .input → s.inq = [] →
    (s.strict = false → step s = .next { s with engine := .suspended }) ∧
    (s.strict = true → step s = .next (s.takeFault .inputUnderflow))

/-- R85: an operand word past the last cell raises `AddressOutOfRange`, the only fault of the operand fetch,
before any parameter is resolved; with every operand word in a cell, the step goes on to the instruction
made of exactly those words. -/
def Obligations.OperandFetch : Prop :=
  ∀ (s : State) (h : Header), s.engine = .running → Fetches s h → ¬(h.kind = .input ∧ s.inq = []) →
    ((∃ k : Nat, k < h.kind.paramCount ∧ (s.cfg.memCells : Int) ≤ s.ip + 1 + k) →
      step s = .next (s.takeFault .addressOutOfRange)) ∧
    ((∀ k : Nat, k < h.kind.paramCount → s.ip + 1 + k < s.cfg.memCells) →
      step s = exec (h.instr (s.mem.read (s.ip + 1).toNat) (s.mem.read (s.ip + 2).toNat)
        (s.mem.read (s.ip + 3).toNat)) s)

/-! ## Addresses and operands -/

/-- R41: `chk`, on the exact integer (R43). -/
def Obligations.AddressCheck : Prop :=
  ∀ (s : State) (a : Int),
    (a < 0 → s.check a = .error .negativeAddress) ∧
    ((s.cfg.memCells : Int) ≤ a → 0 ≤ a → s.check a = .error .addressOutOfRange) ∧
    (0 ≤ a → a < s.cfg.memCells → s.check a = .ok a.toNat)

/-- R86: a read parameter in each mode, with the faults of `chk`; the relative address is the exact sum
(R43). -/
def Obligations.ReadParameterModes : Prop :=
  ∀ (s : State) (v : Word),
    s.readParam ⟨.immediate, v⟩ = .ok v ∧
    (0 ≤ v.toInt → v.toInt < s.cfg.memCells →
      s.readParam ⟨.position, v⟩ = .ok (s.mem.read v.toInt.toNat)) ∧
    (0 ≤ s.rb.toInt + v.toInt → s.rb.toInt + v.toInt < s.cfg.memCells →
      s.readParam ⟨.relative, v⟩ = .ok (s.mem.read (s.rb.toInt + v.toInt).toNat)) ∧
    (∀ f, s.check v.toInt = .error f → s.readParam ⟨.position, v⟩ = .error f) ∧
    (∀ f, s.check (s.rb.toInt + v.toInt) = .error f → s.readParam ⟨.relative, v⟩ = .error f)

/-- R87: a write parameter in each mode. -/
def Obligations.WriteParameterModes : Prop :=
  ∀ (s : State) (v : Word),
    s.writeAddr ⟨.immediate, v⟩ = .error .invalidWriteMode ∧
    s.writeAddr ⟨.position, v⟩ = s.check v.toInt ∧
    s.writeAddr ⟨.relative, v⟩ = s.check (s.rb.toInt + v.toInt)

/-! ## The instructions -/

/-- R120, ADD: its words; the sum stored and `ip + 4`, nothing else changed; `Overflow` when the exact sum
does not fit (the spec's decision D8); the operand faults in the order of R88. -/
def Obligations.AddMeaning : Prop :=
  ∀ (s : State) (a b dst : Param),
    (dst.mode ≠ .immediate →
      decode [BitVec.ofNat 64 (1 + 100 * a.mode.digit + 1000 * b.mode.digit + 10000 * dst.mode.digit),
        a.word, b.word, dst.word] = .ok (.add a b dst, [])) ∧
    (∀ x y d, s.readParam a = .ok x → s.readParam b = .ok y → s.writeAddr dst = .ok d →
      (fits64 (x.toInt + y.toInt) →
        exec (.add a b dst) s =
          .next { s with mem := s.mem.write d (BitVec.ofInt 64 (x.toInt + y.toInt)), ip := s.ip + 4 }) ∧
      (¬fits64 (x.toInt + y.toInt) → TakesFault (.add a b dst) s .overflow)) ∧
    StoringOperandFaults (.add a b dst) s a b dst

/-- R121, MUL: as ADD, with the exact product (`Overflow` by the spec's decision D8). -/
def Obligations.MulMeaning : Prop :=
  ∀ (s : State) (a b dst : Param),
    (dst.mode ≠ .immediate →
      decode [BitVec.ofNat 64 (2 + 100 * a.mode.digit + 1000 * b.mode.digit + 10000 * dst.mode.digit),
        a.word, b.word, dst.word] = .ok (.mul a b dst, [])) ∧
    (∀ x y d, s.readParam a = .ok x → s.readParam b = .ok y → s.writeAddr dst = .ok d →
      (fits64 (x.toInt * y.toInt) →
        exec (.mul a b dst) s =
          .next { s with mem := s.mem.write d (BitVec.ofInt 64 (x.toInt * y.toInt)), ip := s.ip + 4 }) ∧
      (¬fits64 (x.toInt * y.toInt) → TakesFault (.mul a b dst) s .overflow)) ∧
    StoringOperandFaults (.mul a b dst) s a b dst

/-- R130, LESS_THAN: 1 when `a < b` as signed integers, else 0. The opcode 7 and the parameter order are the
spec's decision D4, from general knowledge (log entry 5). -/
def Obligations.LessThanMeaning : Prop :=
  ∀ (s : State) (a b dst : Param),
    (dst.mode ≠ .immediate →
      decode [BitVec.ofNat 64 (7 + 100 * a.mode.digit + 1000 * b.mode.digit + 10000 * dst.mode.digit),
        a.word, b.word, dst.word] = .ok (.lessThan a b dst, [])) ∧
    (∀ x y d, s.readParam a = .ok x → s.readParam b = .ok y → s.writeAddr dst = .ok d →
      (x.toInt < y.toInt →
        exec (.lessThan a b dst) s = .next { s with mem := s.mem.write d 1, ip := s.ip + 4 }) ∧
      (y.toInt ≤ x.toInt →
        exec (.lessThan a b dst) s = .next { s with mem := s.mem.write d 0, ip := s.ip + 4 })) ∧
    StoringOperandFaults (.lessThan a b dst) s a b dst

/-- R131, EQUALS: 1 when `a` and `b` are the same word, else 0. The opcode 8 and the parameter order are the
spec's decision D4, from general knowledge (log entry 5). -/
def Obligations.EqualsMeaning : Prop :=
  ∀ (s : State) (a b dst : Param),
    (dst.mode ≠ .immediate →
      decode [BitVec.ofNat 64 (8 + 100 * a.mode.digit + 1000 * b.mode.digit + 10000 * dst.mode.digit),
        a.word, b.word, dst.word] = .ok (.equals a b dst, [])) ∧
    (∀ x y d, s.readParam a = .ok x → s.readParam b = .ok y → s.writeAddr dst = .ok d →
      (x = y → exec (.equals a b dst) s = .next { s with mem := s.mem.write d 1, ip := s.ip + 4 }) ∧
      (x ≠ y → exec (.equals a b dst) s = .next { s with mem := s.mem.write d 0, ip := s.ip + 4 })) ∧
    StoringOperandFaults (.equals a b dst) s a b dst

/-- R141, JMP_TRUE, with the truth value of R140: any non-zero `c` sets `ip` to the target, unchecked; zero
falls through by 3. Both parameters are resolved either way (decision D11). The opcode 5 and the condition
are the spec's decisions D4 and D9, from general knowledge (log entry 5). -/
def Obligations.JmpTrueMeaning : Prop :=
  ∀ (s : State) (c target : Param),
    decode [BitVec.ofNat 64 (5 + 100 * c.mode.digit + 1000 * target.mode.digit), c.word, target.word] =
      .ok (.jmpTrue c target, []) ∧
    (∀ x t, s.readParam c = .ok x → s.readParam target = .ok t →
      (x ≠ 0 → exec (.jmpTrue c target) s = .next { s with ip := t.toInt }) ∧
      (x = 0 → exec (.jmpTrue c target) s = .next { s with ip := s.ip + 3 })) ∧
    ReadingOperandFaults (.jmpTrue c target) s c target

/-- R142, JMP_FALSE: JMP_TRUE with the condition inverted (decisions D4 and D9, log entry 5). -/
def Obligations.JmpFalseMeaning : Prop :=
  ∀ (s : State) (c target : Param),
    decode [BitVec.ofNat 64 (6 + 100 * c.mode.digit + 1000 * target.mode.digit), c.word, target.word] =
      .ok (.jmpFalse c target, []) ∧
    (∀ x t, s.readParam c = .ok x → s.readParam target = .ok t →
      (x = 0 → exec (.jmpFalse c target) s = .next { s with ip := t.toInt }) ∧
      (x ≠ 0 → exec (.jmpFalse c target) s = .next { s with ip := s.ip + 3 })) ∧
    ReadingOperandFaults (.jmpFalse c target) s c target

/-- R144, HALT: its only word, and nothing changes but `STATE`. -/
def Obligations.HaltMeaning : Prop :=
  (∀ w : Word, (∃ h, decodeWord w = .ok h ∧ h.kind = .halt) ↔ w = 99) ∧
  ∀ s : State, exec .halt s = .next { s with engine := .halted } ∧
    State.done { s with engine := .halted } = 1

/-- R150, INPUT: its words; the queue's head stored and popped, and `ip + 2`; a destination whose address
fails `chk` faults; with the queue empty, the suspension or `InputUnderflow`, whatever the destination. -/
def Obligations.InputMeaning : Prop :=
  ∀ (s : State) (dst : Param),
    (dst.mode ≠ .immediate →
      decode [BitVec.ofNat 64 (3 + 100 * dst.mode.digit), dst.word] = .ok (.input dst, [])) ∧
    (decodeWord 103 = .error .invalidWriteMode) ∧
    (∀ v rest d, s.inq = v :: rest → s.writeAddr dst = .ok d →
      exec (.input dst) s = .next { s with mem := s.mem.write d v, inq := rest, ip := s.ip + 2 }) ∧
    (∀ v rest f, s.inq = v :: rest → s.writeAddr dst = .error f → TakesFault (.input dst) s f) ∧
    (s.inq = [] → s.strict = false → exec (.input dst) s = .next { s with engine := .suspended }) ∧
    (s.inq = [] → s.strict = true → TakesFault (.input dst) s .inputUnderflow)

/-- R151, OUTPUT: its words; the whole word appended and `ip + 2`; `OutputFull` only when a finite
`OUTQ_CAPACITY` leaves no room (decision D16); an operand whose address fails `chk` faults first. -/
def Obligations.OutputMeaning : Prop :=
  ∀ (s : State) (a : Param),
    decode [BitVec.ofNat 64 (4 + 100 * a.mode.digit), a.word] = .ok (.output a, []) ∧
    (∀ x, s.readParam a = .ok x →
      ((∀ c, s.cfg.outqCapacity = some c → s.out.length < c) →
        exec (.output a) s = .next { s with out := s.out ++ [x], ip := s.ip + 2 }) ∧
      (∀ c, s.cfg.outqCapacity = some c → c ≤ s.out.length → TakesFault (.output a) s .outputFull)) ∧
    (∀ f, s.readParam a = .error f → TakesFault (.output a) s f)

/-- R160, BASE_OFFSET: its words; `rb` plus the parameter, resolved with the old `rb`, and `ip + 2`;
`Overflow` when the exact sum does not fit (decision D8). The opcode 9 is decision D4 (log entry 5). -/
def Obligations.BaseOffsetMeaning : Prop :=
  ∀ (s : State) (a : Param),
    decode [BitVec.ofNat 64 (9 + 100 * a.mode.digit), a.word] = .ok (.baseOffset a, []) ∧
    (∀ x, s.readParam a = .ok x →
      (fits64 (s.rb.toInt + x.toInt) →
        exec (.baseOffset a) s =
          .next { s with rb := BitVec.ofInt 64 (s.rb.toInt + x.toInt), ip := s.ip + 2 }) ∧
      (¬fits64 (s.rb.toInt + x.toInt) → TakesFault (.baseOffset a) s .overflow)) ∧
    (∀ f, s.readParam a = .error f → TakesFault (.baseOffset a) s f)

/-- R11 and R122: where the exact result fits, the word stored by ADD or MUL, or put in `rb`, is that
integer and no other: no wrap and no truncation. -/
def Obligations.FittingResultsAreExact : Prop :=
  ∀ v : Int, (fits64 v → ∃ w, narrow v = .ok w ∧ w.toInt = v) ∧ (¬fits64 v → narrow v = .error .overflow)

/-- R120's corner case: the operands of ADD and of MUL commute when both can be read. -/
def Obligations.AddAndMulCommute : Prop :=
  ∀ (s : State) (a b dst : Param) (x y : Word), s.readParam a = .ok x → s.readParam b = .ok y →
    exec (.add a b dst) s = exec (.add b a dst) s ∧ exec (.mul a b dst) s = exec (.mul b a dst) s

/-- R143: a taken jump to a target outside the cells does not fault; the next step does, with `FAULT_IP`
the target (the spec's decision D10). When a jump is taken is its decision D9 (log entry 5: PRESUMED). -/
def Obligations.BadJumpTargetFaultsAtTheNextFetch : Prop :=
  ∀ (s t : State) (c target : Param) (x v : Word), s.engine = .running → s.readParam c = .ok x →
    s.readParam target = .ok v →
    ((x ≠ 0 ∧ exec (.jmpTrue c target) s = .next t) ∨ (x = 0 ∧ exec (.jmpFalse c target) s = .next t)) →
    t.engine = .running ∧ t.ip = v.toInt ∧
    (v.toInt < 0 → ∃ u, step t = .next u ∧ u.fault = some .negativeAddress ∧ u.faultIp = v.toInt) ∧
    (0 ≤ v.toInt → (s.cfg.memCells : Int) ≤ v.toInt →
      ∃ u, step t = .next u ∧ u.fault = some .addressOutOfRange ∧ u.faultIp = v.toInt)

/-- R132: the comparisons write exactly 0 or 1, to the cell of their destination, and change nothing else but
`ip`; or an operand cannot be resolved, and they take its fault: the address of `a`, `b` or `dst` fails `chk`,
or `dst` is in immediate mode, which no decoded instruction has. -/
def Obligations.ComparisonsWriteZeroOrOne : Prop :=
  ∀ (s t : State) (a b dst : Param),
    exec (.lessThan a b dst) s = .next t ∨ exec (.equals a b dst) s = .next t →
    (∃ f, (s.readParam a = .error f ∨ s.readParam b = .error f ∨ s.writeAddr dst = .error f) ∧
      t = s.takeFault f) ∨
    ∃ d v, s.writeAddr dst = .ok d ∧ (v = 0 ∨ v = 1) ∧ t = { s with mem := s.mem.write d v, ip := s.ip + 4 }

/-- R91: unless it is a HALT, an INPUT that suspends, or a fault, an instruction advances `ip` by its own
length, exactly; only a jump that is taken sets another `ip`, and then to its target. The length is the decoded
one even where the instruction overwrites its own words. When a jump is taken is the spec's decision D9, from
general knowledge (log entry 5: PRESUMED), and that a HALT does not advance is its decision D13. -/
def Obligations.DefaultAdvance : Prop :=
  ∀ (s t : State) (i : Instr), exec i s = .next t → ¬Faults s t → i ≠ .halt →
    (∀ dst, i = .input dst → s.inq ≠ []) →
    (t.ip = s.ip + i.header.kind.length ∧ ¬JumpTaken s i) ∨
    (JumpTaken s i ∧ ∃ c target v, (i = .jmpTrue c target ∨ i = .jmpFalse c target) ∧
      s.readParam target = .ok v ∧ t.ip = v.toInt)

/-! ## Frames -/

/-- The frame of the instructions that store: ADD, MUL, LESS_THAN, EQUALS and INPUT. Each takes a fault,
or is an INPUT that suspends with nothing else changed, or changes only the cell that its write parameter
names, `ip`, and for INPUT the queue, of which it takes the oldest value. -/
def Obligations.StoringFrame : Prop :=
  ∀ (s t : State) (i : Instr) (a b dst : Param),
    (i = .add a b dst ∨ i = .mul a b dst ∨ i = .lessThan a b dst ∨ i = .equals a b dst ∨ i = .input dst) →
    s.mem.wf = true → exec i s = .next t →
    Faults s t ∨
    (i = .input dst ∧ s.inq = [] ∧ t = { s with engine := .suspended }) ∨
    (∃ d, s.writeAddr dst = .ok d ∧ SameMemoryBut d s t ∧ SameRecord s t ∧ t.rb = s.rb ∧ t.out = s.out ∧
      t.engine = s.engine ∧ (i ≠ .input dst → t.inq = s.inq) ∧
      (i = .input dst → ∃ v, s.inq = v :: t.inq ∧ t.mem.read d = v))

/-- The frame of the instructions that store nothing: OUTPUT, JMP_TRUE, JMP_FALSE, BASE_OFFSET and HALT.
Each takes a fault, or leaves every cell, the queue `INQ` and the fault record as they are, and changes only
`ip` and: OUTPUT the output sequence, by one value at its end; BASE_OFFSET `rb`; HALT `STATE`, and not
`ip`. -/
def Obligations.NonStoringFrame : Prop :=
  ∀ (s t : State) (i : Instr) (a b : Param),
    (i = .output a ∨ i = .jmpTrue a b ∨ i = .jmpFalse a b ∨ i = .baseOffset a ∨ i = .halt) →
    exec i s = .next t →
    Faults s t ∨
    (SameMemory s t ∧ SameRecord s t ∧ t.inq = s.inq ∧
      (i ≠ .baseOffset a → t.rb = s.rb) ∧
      (i ≠ .output a → t.out = s.out) ∧ (i = .output a → ∃ x, t.out = s.out ++ [x]) ∧
      (i ≠ .halt → t.engine = s.engine) ∧ (i = .halt → t.engine = .halted ∧ t.ip = s.ip))

/-! ## Faults, status and reset -/

/-- R181: fault entry, from the state at which the faulting step started, so that nothing of the step is
committed: `STATE`, the code, and `FAULT_IP` from the `ip` of that state are written; the run is over, and RUN
returns `(FAULTED, code)`. What memory, `ip`, `rb`, `INQ` and `OUT` hold then is unspecified (R93), and this
says nothing of it. -/
def Obligations.FaultEntry : Prop :=
  ∀ (s : State) (f : Fault),
    (s.takeFault f).engine = .faulted ∧ (s.takeFault f).fault = some f ∧
    (s.takeFault f).faultCode = f.code ∧ (s.takeFault f).faultIp = s.ip ∧
    (∀ fuel, runLoop fuel (s.takeFault f) = some (s.takeFault f)) ∧
    (s.takeFault f).runResult = .faulted f.code

/-- The numbers of `STATE` in the table of R29. -/
def Sys2Proof.stateNumbers : List (EngineState × Nat) :=
  [(.unloaded, 0), (.ready, 1), (.running, 2), (.suspended, 3), (.halted, 4), (.faulted, 5)]

/-- The numbers of the faults in the table of R171. -/
def Sys2Proof.faultNumbers : List (Fault × Nat) :=
  [(.invalidOpcode, 1), (.invalidWriteMode, 2), (.inputUnderflow, 3), (.negativeAddress, 4),
    (.invalidMode, 5), (.addressOutOfRange, 6), (.overflow, 7), (.outputFull, 8)]

/-- R29, R30 and R171: the fields of the `STATUS` word, with the numbers of every engine state and of every
fault, its reserved bits, `DONE` exactly in HALTED, and in every sound state `FAULT_CODE` non-zero exactly in
FAULTED. The layout and the numbers are the spec's decision D17, and what a fault records its decision D14. -/
def Obligations.StatusFields : Prop :=
  ∀ s : State,
    (∀ e n, (e, n) ∈ stateNumbers → s.engine = e → (s.status.extractLsb' 0 3).toNat = n) ∧
    (s.status.getLsbD 3 = true ↔ s.engine = .halted) ∧
    s.status.extractLsb' 4 4 = 0 ∧
    (s.fault = none → (s.status.extractLsb' 8 4).toNat = 0) ∧
    (∀ f n, (f, n) ∈ faultNumbers → s.fault = some f → (s.status.extractLsb' 8 4).toNat = n) ∧
    (s.status.extractLsb' 8 4).toNat = s.faultCode ∧
    s.status.extractLsb' 12 52 = 0 ∧
    (s.Inv → (s.status.extractLsb' 8 4 ≠ 0 ↔ s.engine = .faulted))

/-- R195 and the "after LOAD" column of R35, for the empty program and no inputs,
with the default parameters of R9 (log entries 1 and 4). `FAULT_IP`, which R35
leaves unspecified (log entry 4), is not mentioned. -/
def Obligations.ResetIsAfterLoad : Prop :=
  State.reset.ip = 0 ∧ State.reset.rb = 0 ∧ State.reset.inq = [] ∧ State.reset.out = [] ∧
  State.reset.engine = .ready ∧ State.reset.done = 0 ∧ State.reset.faultCode = 0 ∧ State.reset.status = 1 ∧
  (∀ a, State.reset.mem.read a = 0) ∧ State.reset.cfg = Config.standard

/-- R196 and the power-on column of R35: an instance at power-on is UNLOADED, with empty queues, no fault and
the status word 0, and is sound for every legal choice of the parameters. What its memory, `ip`, `rb` and
`FAULT_IP` hold is unspecified, and not mentioned. -/
def Obligations.PowerOnIsUnloaded : Prop :=
  ∀ cfg : Config, (State.powerOn cfg).engine = .unloaded ∧ (State.powerOn cfg).inq = [] ∧
    (State.powerOn cfg).out = [] ∧ (State.powerOn cfg).faultCode = 0 ∧ (State.powerOn cfg).status = 0 ∧
    (cfg.wf = true → (State.powerOn cfg).Inv)

/-! ## Memory -/

/-- R49 and R54: a store is seen at once, by a read of that cell and by the fetch of an instruction word
there, and no other cell changes. -/
def Obligations.StoreIsSeenAtOnce : Prop :=
  ∀ (s : State) (d : Nat) (v : Word), s.mem.wf = true →
    (s.store d v).mem.read d = v ∧ SameMemoryBut d s (s.store d v) ∧
    (∀ h, s.ip = d → d < s.cfg.memCells → (Fetches (s.store d v) h ↔ decodeWord v = .ok h))

/-- Two memories in canonical form whose cells all read the same are the same data. -/
def Obligations.CanonicalMemoriesAreEqualWhenTheyReadEqual : Prop :=
  ∀ m n : Memory, m.wf = true → n.wf = true → (∀ a, m.read a = n.read a) → m = n

/-! ## Invariants and rules of the whole machine -/

/-- The invariant holds at reset. -/
def Obligations.ResetIsSound : Prop := State.reset.Inv

/-- Every step keeps the invariant: the parameters legal, memory canonical and inside the address space,
`ip` in the range of R21, the queues within their capacities, and a fault code exactly in FAULTED. -/
def Obligations.StepKeepsTheInvariant : Prop :=
  ∀ s t : State, s.Inv → step s = .next t → t.Inv

/-- Every accepted transaction keeps the invariant, a RUN to its end among them. -/
def Obligations.TransactionsKeepTheInvariant : Prop :=
  ∀ (fuel : Nat) (x : Transaction) (r : Result) (s t : State), s.Inv → transact fuel x s = .accepted r t →
    t.Inv

/-- R161: no step but one that executes a BASE_OFFSET changes `rb`, a fault apart (R93). -/
def Obligations.OnlyBaseOffsetChangesRb : Prop :=
  ∀ s t : State, s.engine = .running → step s = .next t → t.engine ≠ .faulted → t.rb ≠ s.rb →
    ∃ a, s.nextAction = .execute (.baseOffset a)

/-- R111 and R26: in a step that takes no fault, `INQ` loses a value, the oldest, exactly when an INPUT is
executed and does not suspend, and `OUT` gains a value, at its end, exactly when an OUTPUT is executed; else
each stays as it is. -/
def Obligations.QueuesMoveOnlyByInputAndOutput : Prop :=
  ∀ s t : State, s.engine = .running → step s = .next t → t.engine ≠ .faulted →
    (t.inq = s.inq ∨ ∃ dst v, s.nextAction = .execute (.input dst) ∧ s.inq = v :: t.inq) ∧
    (∀ dst, s.nextAction = .execute (.input dst) → t.engine = .running → ∃ v, s.inq = v :: t.inq) ∧
    (t.out = s.out ∨ ∃ a v, s.nextAction = .execute (.output a) ∧ t.out = s.out ++ [v]) ∧
    (∀ a, s.nextAction = .execute (.output a) → ∃ v, t.out = s.out ++ [v])

/-! ## Runs and transactions -/

/-- R100: a run that has ended ended in HALTED, SUSPENDED or FAULTED, and following it for longer changes
nothing. -/
def Obligations.RunsEndOnlyInThreeStates : Prop :=
  ∀ (s t : State) (fuel : Nat), s.engine = .running → runLoop fuel s = some t →
    (t.engine = .halted ∨ t.engine = .suspended ∨ t.engine = .faulted) ∧
    ∀ more, runLoop (fuel + more) s = some t

/-- R100: a run can hang; one whose step leads back to the state it started in never ends. -/
def Obligations.StepToItselfHangs : Prop :=
  ∀ s : State, s.engine = .running → step s = .next s → RunHangs s

/-- R97: on the same state, a strict run ends within a number of steps exactly when the non-strict run does,
so where one never ends neither does the other. Where they end, the strict run raises `InputUnderflow` exactly
when the non-strict run suspends, and then at the `ip` where that run stands; otherwise the two end in the same
state but for the strict argument itself. The spec derives this from its rules (R97). -/
def Obligations.StrictRunsDifferOnlyWhereNonStrictSuspends : Prop :=
  ∀ (s : State) (fuel : Nat), s.engine = .running → s.fault = none →
    (runLoop fuel { s with strict := true } = none ↔ runLoop fuel { s with strict := false } = none) ∧
    ∀ t, runLoop fuel { s with strict := false } = some t →
      ∃ u, runLoop fuel { s with strict := true } = some u ∧
        (u.fault = some .inputUnderflow ↔ t.engine = .suspended) ∧
        (t.engine = .suspended → u.engine = .faulted ∧ u.faultIp = t.ip) ∧
        (t.engine ≠ .suspended → u = { t with strict := true })

/-- R96: an accepted RUN ends HALTED or SUSPENDED and returns `lastout()`, or FAULTED and returns the code;
`DONE` then reads 1 exactly for HALTED. It is refused exactly where its inputs do not fit the queue
(decision D16). -/
def Obligations.RunReturnsItsOutcome : Prop :=
  ∀ (fuel : Nat) (vs : List Word) (strict : Bool) (s : State), s.engine.usable = true →
    (∀ r t, transact fuel (.run vs strict) s = .accepted r t →
      (t.engine = .halted ∧ r = .halted t.out.getLast? ∧ t.done = 1) ∨
      (t.engine = .suspended ∧ r = .suspended t.out.getLast? ∧ t.done = 0) ∨
      (t.engine = .faulted ∧ r = .faulted t.faultCode ∧ t.done = 0)) ∧
    (transact fuel (.run vs strict) s = .refused ↔
      ∃ c, s.cfg.inqCapacity = some c ∧ c < s.inq.length + vs.length)

/-- R102: PUSH_INPUT appends one word at the tail of `INQ`, and is refused where the queue is full
(decision D16). -/
def Obligations.PushInputAppends : Prop :=
  ∀ (fuel : Nat) (v : Word) (s : State), s.engine.usable = true →
    ((∀ c, s.cfg.inqCapacity = some c → s.inq.length < c) →
      transact fuel (.pushInput v) s = .accepted .done { s with inq := s.inq ++ [v] }) ∧
    (∀ c, s.cfg.inqCapacity = some c → c ≤ s.inq.length → transact fuel (.pushInput v) s = .refused)

/-- R99: a RUN on a HALTED machine with room for its inputs takes no step, appends them, and returns
`(HALTED, lastout())`; and no accepted transaction but LOAD leaves HALTED. -/
def Obligations.HaltedIsTerminal : Prop :=
  (∀ (fuel : Nat) (vs : List Word) (strict : Bool) (s : State), s.engine = .halted →
    s.inqRoom vs.length = true →
    transact fuel (.run vs strict) s = .accepted (.halted s.lastOut) { s with inq := s.inq ++ vs }) ∧
  (∀ (fuel : Nat) (x : Transaction) (r : Result) (s t : State), s.engine = .halted →
    (∀ program inputs, x ≠ .load program inputs) → transact fuel x s = .accepted r t →
    t.engine = .halted ∧ t.out = s.out ∧ t.ip = s.ip ∧ t.rb = s.rb)

/-- R98: a RUN on a SUSPENDED machine whose queue is still empty takes no other step: it suspends again, or
in strict mode raises `InputUnderflow` at the pending INPUT. -/
def Obligations.ResumingWithNoInputSuspendsAgain : Prop :=
  ∀ (fuel : Nat) (s : State) (h : Header), s.engine = .suspended → s.inq = [] →
    Fetches s h → h.kind = .input →
    transact (fuel + 1) (.run [] false) s = .accepted (.suspended s.lastOut) { s with strict := false } ∧
    ∃ t, transact (fuel + 1) (.run [] true) s = .accepted (.faulted 3) t ∧ t.engine = .faulted ∧
      t.faultIp = s.ip

/-- R98 and R150: a RUN with one new input on a SUSPENDED machine goes on as a run that executes the pending
INPUT first, which takes exactly that value. -/
def Obligations.ResumingExecutesThePendingInput : Prop :=
  ∀ (s : State) (v : Word) (strict : Bool) (ws rest : List Word) (dst : Param) (d : Nat),
    s.engine = .suspended → s.inq = [] → WordsAtIp s ws → decode ws = .ok (.input dst, rest) →
    s.writeAddr dst = .ok d →
    step (s.startRun [v] strict) =
      .next { s with mem := s.mem.write d v, ip := s.ip + 2, engine := .running, strict := strict }

/-- R102: a RUN with inputs is PUSH_INPUT of the first of them, which is accepted, and then a RUN with the
others; so, one input at a time, it is PUSH_INPUT of each and then a RUN with none. -/
def Obligations.RunWithInputsIsPushesThenRun : Prop :=
  ∀ (fuel : Nat) (v : Word) (vs : List Word) (strict : Bool) (s : State), s.engine.usable = true →
    s.inqRoom (vs.length + 1) = true →
    ∃ t, transact fuel (.pushInput v) s = .accepted .done t ∧ t = { s with inq := s.inq ++ [v] } ∧
      t.inqRoom vs.length = true ∧
      transact fuel (.run (v :: vs) strict) s = transact fuel (.run vs strict) t

/-- R101: LOAD is refused where the program or the inputs do not fit; else it sets every element of the
state as the rule says. `FAULT_IP` is unspecified and not mentioned. -/
def Obligations.LoadSetsTheState : Prop :=
  ∀ (fuel : Nat) (program inputs : List Word) (s : State), s.engine ≠ .running →
    (s.cfg.memCells < program.length →
      transact fuel (.load program inputs) s = .refused) ∧
    (∀ c, s.cfg.inqCapacity = some c → c < inputs.length →
      transact fuel (.load program inputs) s = .refused) ∧
    (program.length ≤ s.cfg.memCells → (∀ c, s.cfg.inqCapacity = some c → inputs.length ≤ c) →
      ∃ t, transact fuel (.load program inputs) s = .accepted .done t ∧
        (∀ a, t.mem.read a = program.getD a 0) ∧ t.mem.wf = true ∧ t.ip = 0 ∧ t.rb = 0 ∧
        t.inq = inputs ∧ t.out = [] ∧ t.engine = .ready ∧ t.faultCode = 0 ∧ t.cfg = s.cfg)

/-- R104: PEEK and POKE on an existing cell, and their refusal outside the cells; a POKE is read back by
PEEK and changes no other cell and no other field. -/
def Obligations.PeekAndPoke : Prop :=
  ∀ (fuel : Nat) (a : Int) (v : Word) (s : State), s.engine.usable = true → s.mem.wf = true →
    (0 ≤ a → a < s.cfg.memCells →
      transact fuel (.peek a) s = .accepted (.word (s.mem.read a.toNat)) s ∧
      ∃ t, transact fuel (.poke a v) s = .accepted .done t ∧ t = { s with mem := t.mem } ∧
        SameMemoryBut a.toNat s t ∧ transact fuel (.peek a) t = .accepted (.word v) t) ∧
    (a < 0 ∨ (s.cfg.memCells : Int) ≤ a →
      transact fuel (.peek a) s = .refused ∧ transact fuel (.poke a v) s = .refused)

/-- R103, R106 and R107: the output sequence as the host reads it, and `get_output`, none of which changes
any state. -/
def Obligations.OutputReading : Prop :=
  ∀ (fuel : Nat) (s : State), s.engine.usable = true →
    transact fuel .outCount s = .accepted (.count s.out.length) s ∧
    (∀ i : Nat, ∀ w, s.out[i]? = some w → transact fuel (.outRead i) s = .accepted (.word w) s) ∧
    (∀ i : Int, i < 0 ∨ (s.out.length : Int) ≤ i → transact fuel (.outRead i) s = .refused) ∧
    (s.out = [] → getOutput 1 s = .last none) ∧
    (∀ l w, s.out = l ++ [w] → getOutput 1 s = .last (some w)) ∧
    (∀ l m, s.out = l ++ m → 2 ≤ m.length → getOutput m.length s = .lastN m) ∧
    (∀ n : Int, n < 1 ∨ (2 ≤ n ∧ (s.out.length : Int) < n) → getOutput n s = .refused)

/-- R109 and R105: which transactions each state refuses, whatever their arguments; and STATUS and FAULT_IP
where they are accepted. -/
def Obligations.AcceptanceTable : Prop :=
  ∀ (fuel : Nat) (x : Transaction) (s : State),
    (s.engine = .running → transact fuel x s = .refused) ∧
    (s.engine = .unloaded → x ≠ .status → (∀ p i, x ≠ .load p i) → transact fuel x s = .refused) ∧
    (s.engine = .faulted → x ≠ .status → x ≠ .faultIp → (∀ p i, x ≠ .load p i) →
      transact fuel x s = .refused) ∧
    (s.engine ≠ .faulted → transact fuel .faultIp s = .refused) ∧
    (s.engine = .faulted → transact fuel .faultIp s = .accepted (.address s.faultIp) s) ∧
    (s.engine ≠ .running → transact fuel .status s = .accepted (.word s.status) s)

/-- The parameters of R9 are configuration and strictness is an argument of the whole RUN (R34): no step
changes either. Of the entry of a fault the spec says nothing here; that it leaves both as they are is the
model's choice (log entries 1, 2 and 3: DESIGN CHOICE). -/
def Obligations.StepsKeepTheParameters : Prop :=
  (∀ s t : State, step s = .next t → t.cfg = s.cfg ∧ t.strict = s.strict) ∧
  ∀ (s : State) (f : Fault), (s.takeFault f).cfg = s.cfg ∧ (s.takeFault f).strict = s.strict
end

