-- ==== Sys2Proof/Laws/State.lean ====
section
/-! SUPPORT. One lemma per field per update of the state, each true by rfl, so that no proof unfolds a
record update; and the fields of a state that took a fault. -/

namespace Sys2Proof.Machine

/-! ## `State.store` -/

@[simp] theorem State.store_cfg (s : State) (a : Nat) (v : Word) : (s.store a v).cfg = s.cfg := rfl
@[simp] theorem State.store_mem (s : State) (a : Nat) (v : Word) : (s.store a v).mem = s.mem.write a v := rfl
@[simp] theorem State.store_ip (s : State) (a : Nat) (v : Word) : (s.store a v).ip = s.ip := rfl
@[simp] theorem State.store_rb (s : State) (a : Nat) (v : Word) : (s.store a v).rb = s.rb := rfl
@[simp] theorem State.store_inq (s : State) (a : Nat) (v : Word) : (s.store a v).inq = s.inq := rfl
@[simp] theorem State.store_out (s : State) (a : Nat) (v : Word) : (s.store a v).out = s.out := rfl
@[simp] theorem State.store_engine (s : State) (a : Nat) (v : Word) : (s.store a v).engine = s.engine := rfl
@[simp] theorem State.store_fault (s : State) (a : Nat) (v : Word) : (s.store a v).fault = s.fault := rfl
@[simp] theorem State.store_faultIp (s : State) (a : Nat) (v : Word) : (s.store a v).faultIp = s.faultIp := rfl
@[simp] theorem State.store_strict (s : State) (a : Nat) (v : Word) : (s.store a v).strict = s.strict := rfl
@[simp] theorem State.store_freeCount (s : State) (a : Nat) (v : Word) : (s.store a v).freeCount = s.freeCount := rfl

/-! ## `State.advance` -/

@[simp] theorem State.advance_cfg (s : State) (n : Int) : (s.advance n).cfg = s.cfg := rfl
@[simp] theorem State.advance_mem (s : State) (n : Int) : (s.advance n).mem = s.mem := rfl
@[simp] theorem State.advance_ip (s : State) (n : Int) : (s.advance n).ip = s.ip + n := rfl
@[simp] theorem State.advance_rb (s : State) (n : Int) : (s.advance n).rb = s.rb := rfl
@[simp] theorem State.advance_inq (s : State) (n : Int) : (s.advance n).inq = s.inq := rfl
@[simp] theorem State.advance_out (s : State) (n : Int) : (s.advance n).out = s.out := rfl
@[simp] theorem State.advance_engine (s : State) (n : Int) : (s.advance n).engine = s.engine := rfl
@[simp] theorem State.advance_fault (s : State) (n : Int) : (s.advance n).fault = s.fault := rfl
@[simp] theorem State.advance_faultIp (s : State) (n : Int) : (s.advance n).faultIp = s.faultIp := rfl
@[simp] theorem State.advance_strict (s : State) (n : Int) : (s.advance n).strict = s.strict := rfl
@[simp] theorem State.advance_freeCount (s : State) (n : Int) : (s.advance n).freeCount = s.freeCount := rfl

/-! ## `State.jump` -/

@[simp] theorem State.jump_cfg (s : State) (t : Word) : (s.jump t).cfg = s.cfg := rfl
@[simp] theorem State.jump_mem (s : State) (t : Word) : (s.jump t).mem = s.mem := rfl
@[simp] theorem State.jump_ip (s : State) (t : Word) : (s.jump t).ip = t.toInt := rfl
@[simp] theorem State.jump_rb (s : State) (t : Word) : (s.jump t).rb = s.rb := rfl
@[simp] theorem State.jump_inq (s : State) (t : Word) : (s.jump t).inq = s.inq := rfl
@[simp] theorem State.jump_out (s : State) (t : Word) : (s.jump t).out = s.out := rfl
@[simp] theorem State.jump_engine (s : State) (t : Word) : (s.jump t).engine = s.engine := rfl
@[simp] theorem State.jump_fault (s : State) (t : Word) : (s.jump t).fault = s.fault := rfl
@[simp] theorem State.jump_faultIp (s : State) (t : Word) : (s.jump t).faultIp = s.faultIp := rfl
@[simp] theorem State.jump_strict (s : State) (t : Word) : (s.jump t).strict = s.strict := rfl
@[simp] theorem State.jump_freeCount (s : State) (t : Word) : (s.jump t).freeCount = s.freeCount := rfl

/-! ## `State.setRb` -/

@[simp] theorem State.setRb_cfg (s : State) (v : Word) : (s.setRb v).cfg = s.cfg := rfl
@[simp] theorem State.setRb_mem (s : State) (v : Word) : (s.setRb v).mem = s.mem := rfl
@[simp] theorem State.setRb_ip (s : State) (v : Word) : (s.setRb v).ip = s.ip := rfl
@[simp] theorem State.setRb_rb (s : State) (v : Word) : (s.setRb v).rb = v := rfl
@[simp] theorem State.setRb_inq (s : State) (v : Word) : (s.setRb v).inq = s.inq := rfl
@[simp] theorem State.setRb_out (s : State) (v : Word) : (s.setRb v).out = s.out := rfl
@[simp] theorem State.setRb_engine (s : State) (v : Word) : (s.setRb v).engine = s.engine := rfl
@[simp] theorem State.setRb_fault (s : State) (v : Word) : (s.setRb v).fault = s.fault := rfl
@[simp] theorem State.setRb_faultIp (s : State) (v : Word) : (s.setRb v).faultIp = s.faultIp := rfl
@[simp] theorem State.setRb_strict (s : State) (v : Word) : (s.setRb v).strict = s.strict := rfl
@[simp] theorem State.setRb_freeCount (s : State) (v : Word) : (s.setRb v).freeCount = s.freeCount := rfl

/-! ## `State.setInq` -/

@[simp] theorem State.setInq_cfg (s : State) (l : List Word) : (s.setInq l).cfg = s.cfg := rfl
@[simp] theorem State.setInq_mem (s : State) (l : List Word) : (s.setInq l).mem = s.mem := rfl
@[simp] theorem State.setInq_ip (s : State) (l : List Word) : (s.setInq l).ip = s.ip := rfl
@[simp] theorem State.setInq_rb (s : State) (l : List Word) : (s.setInq l).rb = s.rb := rfl
@[simp] theorem State.setInq_inq (s : State) (l : List Word) : (s.setInq l).inq = l := rfl
@[simp] theorem State.setInq_out (s : State) (l : List Word) : (s.setInq l).out = s.out := rfl
@[simp] theorem State.setInq_engine (s : State) (l : List Word) : (s.setInq l).engine = s.engine := rfl
@[simp] theorem State.setInq_fault (s : State) (l : List Word) : (s.setInq l).fault = s.fault := rfl
@[simp] theorem State.setInq_faultIp (s : State) (l : List Word) : (s.setInq l).faultIp = s.faultIp := rfl
@[simp] theorem State.setInq_strict (s : State) (l : List Word) : (s.setInq l).strict = s.strict := rfl
@[simp] theorem State.setInq_freeCount (s : State) (l : List Word) : (s.setInq l).freeCount = s.freeCount := rfl

/-! ## `State.emit` -/

@[simp] theorem State.emit_cfg (s : State) (v : Word) : (s.emit v).cfg = s.cfg := rfl
@[simp] theorem State.emit_mem (s : State) (v : Word) : (s.emit v).mem = s.mem := rfl
@[simp] theorem State.emit_ip (s : State) (v : Word) : (s.emit v).ip = s.ip := rfl
@[simp] theorem State.emit_rb (s : State) (v : Word) : (s.emit v).rb = s.rb := rfl
@[simp] theorem State.emit_inq (s : State) (v : Word) : (s.emit v).inq = s.inq := rfl
@[simp] theorem State.emit_out (s : State) (v : Word) : (s.emit v).out = s.out ++ [v] := rfl
@[simp] theorem State.emit_engine (s : State) (v : Word) : (s.emit v).engine = s.engine := rfl
@[simp] theorem State.emit_fault (s : State) (v : Word) : (s.emit v).fault = s.fault := rfl
@[simp] theorem State.emit_faultIp (s : State) (v : Word) : (s.emit v).faultIp = s.faultIp := rfl
@[simp] theorem State.emit_strict (s : State) (v : Word) : (s.emit v).strict = s.strict := rfl
@[simp] theorem State.emit_freeCount (s : State) (v : Word) : (s.emit v).freeCount = s.freeCount := rfl

/-! ## `State.halt` -/

@[simp] theorem State.halt_cfg (s : State) : (s.halt).cfg = s.cfg := rfl
@[simp] theorem State.halt_mem (s : State) : (s.halt).mem = s.mem := rfl
@[simp] theorem State.halt_ip (s : State) : (s.halt).ip = s.ip := rfl
@[simp] theorem State.halt_rb (s : State) : (s.halt).rb = s.rb := rfl
@[simp] theorem State.halt_inq (s : State) : (s.halt).inq = s.inq := rfl
@[simp] theorem State.halt_out (s : State) : (s.halt).out = s.out := rfl
@[simp] theorem State.halt_engine (s : State) : (s.halt).engine = .halted := rfl
@[simp] theorem State.halt_fault (s : State) : (s.halt).fault = s.fault := rfl
@[simp] theorem State.halt_faultIp (s : State) : (s.halt).faultIp = s.faultIp := rfl
@[simp] theorem State.halt_strict (s : State) : (s.halt).strict = s.strict := rfl
@[simp] theorem State.halt_freeCount (s : State) : (s.halt).freeCount = s.freeCount := rfl

/-! ## `State.suspend` -/

@[simp] theorem State.suspend_cfg (s : State) : (s.suspend).cfg = s.cfg := rfl
@[simp] theorem State.suspend_mem (s : State) : (s.suspend).mem = s.mem := rfl
@[simp] theorem State.suspend_ip (s : State) : (s.suspend).ip = s.ip := rfl
@[simp] theorem State.suspend_rb (s : State) : (s.suspend).rb = s.rb := rfl
@[simp] theorem State.suspend_inq (s : State) : (s.suspend).inq = s.inq := rfl
@[simp] theorem State.suspend_out (s : State) : (s.suspend).out = s.out := rfl
@[simp] theorem State.suspend_engine (s : State) : (s.suspend).engine = .suspended := rfl
@[simp] theorem State.suspend_fault (s : State) : (s.suspend).fault = s.fault := rfl
@[simp] theorem State.suspend_faultIp (s : State) : (s.suspend).faultIp = s.faultIp := rfl
@[simp] theorem State.suspend_strict (s : State) : (s.suspend).strict = s.strict := rfl
@[simp] theorem State.suspend_freeCount (s : State) : (s.suspend).freeCount = s.freeCount := rfl

/-! ## `State.pushInputs` -/

@[simp] theorem State.pushInputs_cfg (s : State) (vs : List Word) : (s.pushInputs vs).cfg = s.cfg := rfl
@[simp] theorem State.pushInputs_mem (s : State) (vs : List Word) : (s.pushInputs vs).mem = s.mem := rfl
@[simp] theorem State.pushInputs_ip (s : State) (vs : List Word) : (s.pushInputs vs).ip = s.ip := rfl
@[simp] theorem State.pushInputs_rb (s : State) (vs : List Word) : (s.pushInputs vs).rb = s.rb := rfl
@[simp] theorem State.pushInputs_inq (s : State) (vs : List Word) : (s.pushInputs vs).inq = s.inq ++ vs := rfl
@[simp] theorem State.pushInputs_out (s : State) (vs : List Word) : (s.pushInputs vs).out = s.out := rfl
@[simp] theorem State.pushInputs_engine (s : State) (vs : List Word) : (s.pushInputs vs).engine = s.engine := rfl
@[simp] theorem State.pushInputs_fault (s : State) (vs : List Word) : (s.pushInputs vs).fault = s.fault := rfl
@[simp] theorem State.pushInputs_faultIp (s : State) (vs : List Word) : (s.pushInputs vs).faultIp = s.faultIp := rfl
@[simp] theorem State.pushInputs_strict (s : State) (vs : List Word) : (s.pushInputs vs).strict = s.strict := rfl
@[simp] theorem State.pushInputs_freeCount (s : State) (vs : List Word) : (s.pushInputs vs).freeCount = s.freeCount := rfl

/-! ## `State.takeFault`: what it writes, and what it leaves. Memory, `ip`, `rb`, `INQ` and `OUT` are free
values, and have no lemma of a value. -/

@[simp] theorem State.takeFault_engine (s : State) (f : Fault) : (s.takeFault f).engine = .faulted := rfl
@[simp] theorem State.takeFault_fault (s : State) (f : Fault) : (s.takeFault f).fault = some f := rfl
@[simp] theorem State.takeFault_faultIp (s : State) (f : Fault) : (s.takeFault f).faultIp = s.ip := rfl
@[simp] theorem State.takeFault_cfg (s : State) (f : Fault) : (s.takeFault f).cfg = s.cfg := rfl
@[simp] theorem State.takeFault_strict (s : State) (f : Fault) : (s.takeFault f).strict = s.strict := rfl
@[simp] theorem State.takeFault_freeCount (s : State) (f : Fault) :
    (s.takeFault f).freeCount = s.freeCount + 1 := rfl

end Sys2Proof.Machine
end

