-- ==== Sys2Proof/Laws/Exec.lean ====
section
/-! SUPPORT. For each shared operation, and for each instruction's meaning, one lemma that says everything
it can do, to be cited instead of unfolding it. -/

namespace Sys2Proof.Machine

/-! ## Addresses and operands -/

theorem State.check_eq_ok {s : State} {a : Int} {n : Nat} :
    s.check a = .ok n ↔ 0 ≤ a ∧ a < s.cfg.memCells ∧ n = a.toNat := by
  unfold State.check
  split
  · simp; omega
  · split
    · simp; omega
    · simp; omega

theorem State.check_eq_error {s : State} {a : Int} {f : Fault} :
    s.check a = .error f ↔
      (a < 0 ∧ f = .negativeAddress) ∨
        (0 ≤ a ∧ (s.cfg.memCells : Int) ≤ a ∧ f = .addressOutOfRange) := by
  unfold State.check
  rcases Int.lt_or_le a 0 with h | h
  · simp [h, show ¬0 ≤ a by omega, eq_comm]
  · rcases Int.lt_or_le a s.cfg.memCells with h' | h'
    · simp [show ¬a < 0 by omega, show ¬(s.cfg.memCells : Int) ≤ a by omega]
    · simp [h, h', show ¬a < 0 by omega, eq_comm]

/-- An address that `chk` lets through is that of an existing cell. -/
theorem State.lt_of_check {s : State} {a : Int} {n : Nat} (h : s.check a = .ok n) : n < s.cfg.memCells := by
  obtain ⟨_, _, rfl⟩ := State.check_eq_ok.1 h
  omega

theorem State.readCell_eq_ok {s : State} {a : Int} {w : Word} :
    s.readCell a = .ok w ↔ 0 ≤ a ∧ a < s.cfg.memCells ∧ w = s.mem.read a.toNat := by
  unfold State.readCell
  split
  · rename_i f h
    rw [State.check_eq_error] at h
    constructor
    · intro h'; cases h'
    · omega
  · rename_i n h
    obtain ⟨h0, h1, rfl⟩ := State.check_eq_ok.1 h
    simp [h0, h1, eq_comm]

theorem State.readCell_eq_error {s : State} {a : Int} {f : Fault} :
    s.readCell a = .error f ↔ s.check a = .error f := by
  unfold State.readCell
  split <;> simp [*]

/-- A write address is one that `chk` let through. -/
theorem State.writeAddr_lt {s : State} {p : Param} {d : Nat} (h : s.writeAddr p = .ok d) :
    d < s.cfg.memCells := by
  unfold State.writeAddr at h
  split at h
  · cases h
  · exact State.lt_of_check h

/-! ## Results -/

theorem narrow_eq_ok {v : Int} {w : Word} : narrow v = .ok w ↔ fits64 v ∧ w = BitVec.ofInt 64 v := by
  unfold narrow
  by_cases h : fits64 v
  · rw [if_pos h, Except.ok.injEq]
    exact ⟨fun e => ⟨h, e.symm⟩, fun e => e.2.symm⟩
  · rw [if_neg h]
    exact ⟨fun e => (nomatch e), fun e => absurd e.1 h⟩

theorem narrow_eq_error {v : Int} {f : Fault} : narrow v = .error f ↔ ¬fits64 v ∧ f = .overflow := by
  unfold narrow
  split <;> simp_all [eq_comm]

/-! ## How an instruction ends -/

theorem State.settle_eq_next {s t : State} {r : Except Fault State} :
    s.settle r = .next t ↔ r = .ok t ∨ ∃ f, r = .error f ∧ t = s.takeFault f := by
  cases r <;> simp [State.settle, eq_comm]

/-- Every meaning built from `settle` answers a next state. -/
theorem State.settle_isNext (s : State) (r : Except Fault State) : ∃ t, s.settle r = .next t := by
  cases r <;> simp [State.settle]

theorem State.starve_cases (s : State) :
    (s.strict = false ∧ s.starve = s.suspend) ∨
      (s.strict = true ∧ s.starve = s.takeFault .inputUnderflow) := by
  unfold State.starve
  cases s.strict <;> simp

theorem State.storeBinary_eq_ok {s t : State} {f : Int → Int → Except Fault Word} {a b dst : Param} :
    s.storeBinary f a b dst = .ok t ↔
      ∃ x y d r, s.readParam a = .ok x ∧ s.readParam b = .ok y ∧ s.writeAddr dst = .ok d ∧
        f x.toInt y.toInt = .ok r ∧ t = (s.store d r).advance 4 := by
  unfold State.storeBinary
  cases ha : s.readParam a <;> cases hb : s.readParam b <;> cases hd : s.writeAddr dst <;>
    simp [bind, Except.bind]
  rename_i x y d
  cases f x.toInt y.toInt <;> simp [eq_comm]

theorem State.storeBinary_eq_error {s : State} {f : Int → Int → Except Fault Word} {a b dst : Param}
    {e : Fault} :
    s.storeBinary f a b dst = .error e ↔
      StoringOperandFails s a b dst e ∨
      (∃ x y d, s.readParam a = .ok x ∧ s.readParam b = .ok y ∧ s.writeAddr dst = .ok d ∧
        f x.toInt y.toInt = .error e) := by
  unfold State.storeBinary StoringOperandFails
  cases ha : s.readParam a <;> cases hb : s.readParam b <;> cases hd : s.writeAddr dst <;>
    simp [bind, Except.bind]
  rename_i x y d
  cases f x.toInt y.toInt <;> simp

theorem State.jumpWhen_eq_ok {s t : State} {taken : Word → Bool} {c target : Param} :
    s.jumpWhen taken c target = .ok t ↔
      ∃ x v, s.readParam c = .ok x ∧ s.readParam target = .ok v ∧
        t = if taken x then s.jump v else s.advance 3 := by
  unfold State.jumpWhen
  cases hc : s.readParam c <;> cases ht : s.readParam target <;> simp [bind, Except.bind]
  rename_i x v
  cases taken x <;> simp [eq_comm]

theorem State.jumpWhen_eq_error {s : State} {taken : Word → Bool} {c target : Param} {e : Fault} :
    s.jumpWhen taken c target = .error e ↔
      s.readParam c = .error e ∨ ∃ x, s.readParam c = .ok x ∧ s.readParam target = .error e := by
  unfold State.jumpWhen
  cases hc : s.readParam c <;> cases ht : s.readParam target <;> simp [bind, Except.bind]
  rename_i x v
  cases taken x <;> simp

theorem State.inputTo_eq_ok {s t : State} {v : Word} {rest : List Word} {dst : Param} :
    s.inputTo v rest dst = .ok t ↔
      ∃ d, s.writeAddr dst = .ok d ∧ t = ((s.store d v).setInq rest).advance 2 := by
  unfold State.inputTo
  cases s.writeAddr dst <;> simp [bind, Except.bind, eq_comm]

theorem State.inputTo_eq_error {s : State} {v : Word} {rest : List Word} {dst : Param} {e : Fault} :
    s.inputTo v rest dst = .error e ↔ s.writeAddr dst = .error e := by
  unfold State.inputTo
  cases s.writeAddr dst <;> simp [bind, Except.bind]

theorem State.outputParam_eq_ok {s t : State} {a : Param} :
    s.outputParam a = .ok t ↔
      ∃ x, s.readParam a = .ok x ∧ s.outFull = false ∧ t = (s.emit x).advance 2 := by
  unfold State.outputParam
  cases s.readParam a <;> cases s.outFull <;> simp [bind, Except.bind, eq_comm]

theorem State.outputParam_eq_error {s : State} {a : Param} {e : Fault} :
    s.outputParam a = .error e ↔
      s.readParam a = .error e ∨ ∃ x, s.readParam a = .ok x ∧ s.outFull = true ∧ e = .outputFull := by
  unfold State.outputParam
  cases s.readParam a <;> cases s.outFull <;> simp [bind, Except.bind, eq_comm]

theorem State.offsetBase_eq_ok {s t : State} {a : Param} :
    s.offsetBase a = .ok t ↔
      ∃ x r, s.readParam a = .ok x ∧ narrow (s.rb.toInt + x.toInt) = .ok r ∧
        t = (s.setRb r).advance 2 := by
  unfold State.offsetBase
  cases s.readParam a with
  | error f => simp [bind, Except.bind]
  | ok x => cases h : narrow (s.rb.toInt + x.toInt) <;> simp [bind, Except.bind, h, eq_comm]

theorem State.offsetBase_eq_error {s : State} {a : Param} {e : Fault} :
    s.offsetBase a = .error e ↔
      s.readParam a = .error e ∨
        ∃ x, s.readParam a = .ok x ∧ narrow (s.rb.toInt + x.toInt) = .error e := by
  unfold State.offsetBase
  cases s.readParam a with
  | error f => simp [bind, Except.bind]
  | ok x => cases h : narrow (s.rb.toInt + x.toInt) <;> simp [bind, Except.bind, h]

/-- A list cut to a capacity is within it. -/
theorem takeCapacity_fits (c : Option Nat) (l : List Word) :
    withinCapacity c (takeCapacity c l).length = true := by
  cases c <;> simp [withinCapacity, takeCapacity]

/-- R140: a word is true exactly when it is not 0. -/
theorem holds_iff {c : Word} : holds c = true ↔ c ≠ 0 := decide_eq_true_iff

/-! ## What each meaning can answer -/

/-- Everything the four instructions of the form `dst = f(a, b)` can answer: the fault of an operand, the fault
of the result, or the result stored. -/
theorem State.settle_storeBinary_cases {s t : State} {f : Int → Int → Except Fault Word} {a b dst : Param}
    (h : s.settle (s.storeBinary f a b dst) = .next t) :
    (∃ e, (StoringOperandFails s a b dst e ∨
        ∃ x y, s.readParam a = .ok x ∧ s.readParam b = .ok y ∧ f x.toInt y.toInt = .error e) ∧
      t = s.takeFault e) ∨
      ∃ x y d r, s.readParam a = .ok x ∧ s.readParam b = .ok y ∧ s.writeAddr dst = .ok d ∧
        f x.toInt y.toInt = .ok r ∧ t = (s.store d r).advance 4 := by
  rcases State.settle_eq_next.1 h with h | ⟨e, he, rfl⟩
  · exact .inr (State.storeBinary_eq_ok.1 h)
  · rcases State.storeBinary_eq_error.1 he with he | ⟨x, y, _, hx, hy, _, hf⟩
    exacts [.inl ⟨e, .inl he, rfl⟩, .inl ⟨e, .inr ⟨x, y, hx, hy, hf⟩, rfl⟩]

theorem execAdd_cases {s t : State} {a b dst : Param} (h : exec (.add a b dst) s = .next t) :
    Faults s t ∨ ∃ d r, s.writeAddr dst = .ok d ∧ t = (s.store d r).advance 4 := by
  rcases State.settle_storeBinary_cases h with ⟨e, _, ht⟩ | ⟨_, _, d, r, _, _, hd, _, ht⟩
  exacts [.inl ⟨e, ht⟩, .inr ⟨d, r, hd, ht⟩]

theorem execMul_cases {s t : State} {a b dst : Param} (h : exec (.mul a b dst) s = .next t) :
    Faults s t ∨ ∃ d r, s.writeAddr dst = .ok d ∧ t = (s.store d r).advance 4 := by
  rcases State.settle_storeBinary_cases h with ⟨e, _, ht⟩ | ⟨_, _, d, r, _, _, hd, _, ht⟩
  exacts [.inl ⟨e, ht⟩, .inr ⟨d, r, hd, ht⟩]

theorem execLessThan_cases {s t : State} {a b dst : Param} (h : exec (.lessThan a b dst) s = .next t) :
    Faults s t ∨ ∃ d r, s.writeAddr dst = .ok d ∧ t = (s.store d r).advance 4 := by
  rcases State.settle_storeBinary_cases h with ⟨e, _, ht⟩ | ⟨_, _, d, r, _, _, hd, _, ht⟩
  exacts [.inl ⟨e, ht⟩, .inr ⟨d, r, hd, ht⟩]

theorem execEquals_cases {s t : State} {a b dst : Param} (h : exec (.equals a b dst) s = .next t) :
    Faults s t ∨ ∃ d r, s.writeAddr dst = .ok d ∧ t = (s.store d r).advance 4 := by
  rcases State.settle_storeBinary_cases h with ⟨e, _, ht⟩ | ⟨_, _, d, r, _, _, hd, _, ht⟩
  exacts [.inl ⟨e, ht⟩, .inr ⟨d, r, hd, ht⟩]

theorem execJmpTrue_cases {s t : State} {c target : Param} (h : exec (.jmpTrue c target) s = .next t) :
    Faults s t ∨ ∃ x v, s.readParam c = .ok x ∧ s.readParam target = .ok v ∧
      ((x ≠ 0 ∧ t = s.jump v) ∨ (x = 0 ∧ t = s.advance 3)) := by
  rcases State.settle_eq_next.1 h with h | ⟨e, _, rfl⟩
  · obtain ⟨x, v, hx, hv, rfl⟩ := State.jumpWhen_eq_ok.1 h
    refine .inr ⟨x, v, hx, hv, ?_⟩
    by_cases h0 : x = 0
    exacts [.inr ⟨h0, if_neg (by simp [holds, h0])⟩, .inl ⟨h0, if_pos (holds_iff.2 h0)⟩]
  · exact .inl ⟨e, rfl⟩

theorem execJmpFalse_cases {s t : State} {c target : Param} (h : exec (.jmpFalse c target) s = .next t) :
    Faults s t ∨ ∃ x v, s.readParam c = .ok x ∧ s.readParam target = .ok v ∧
      ((x = 0 ∧ t = s.jump v) ∨ (x ≠ 0 ∧ t = s.advance 3)) := by
  rcases State.settle_eq_next.1 h with h | ⟨e, _, rfl⟩
  · obtain ⟨x, v, hx, hv, rfl⟩ := State.jumpWhen_eq_ok.1 h
    refine .inr ⟨x, v, hx, hv, ?_⟩
    by_cases h0 : x = 0
    exacts [.inl ⟨h0, if_pos (by simp [holds, h0])⟩, .inr ⟨h0, if_neg (by simp [holds_iff.2 h0])⟩]
  · exact .inl ⟨e, rfl⟩

theorem execHalt_eq (s : State) : exec .halt s = .next s.halt := rfl

theorem execInput_nil {s : State} {dst : Param} (h : s.inq = []) : exec (.input dst) s = .next s.starve := by
  simp only [exec, execInput, h]

theorem execInput_cons {s : State} {dst : Param} {v : Word} {rest : List Word} (h : s.inq = v :: rest) :
    exec (.input dst) s = s.settle (s.inputTo v rest dst) := by
  simp only [exec, execInput, h]

theorem execInput_cases {s t : State} {dst : Param} (h : exec (.input dst) s = .next t) :
    Faults s t ∨ (s.inq = [] ∧ s.strict = false ∧ t = s.suspend) ∨
      ∃ v rest d, s.inq = v :: rest ∧ s.writeAddr dst = .ok d ∧
        t = ((s.store d v).setInq rest).advance 2 := by
  match hq : s.inq with
  | [] =>
    rw [execInput_nil hq] at h
    cases h
    rcases s.starve_cases with ⟨hs, ht⟩ | ⟨_, ht⟩
    · exact .inr (.inl ⟨rfl, hs, ht⟩)
    · exact .inl ⟨_, ht⟩
  | v :: rest =>
    rw [execInput_cons hq] at h
    rcases State.settle_eq_next.1 h with h | ⟨e, _, rfl⟩
    · obtain ⟨d, hd, ht⟩ := State.inputTo_eq_ok.1 h
      exact .inr (.inr ⟨v, rest, d, rfl, hd, ht⟩)
    · exact .inl ⟨e, rfl⟩

theorem execOutput_cases {s t : State} {a : Param} (h : exec (.output a) s = .next t) :
    Faults s t ∨ ∃ x, s.readParam a = .ok x ∧ s.outFull = false ∧ t = (s.emit x).advance 2 := by
  rcases State.settle_eq_next.1 h with h | ⟨e, _, rfl⟩
  · exact .inr (State.outputParam_eq_ok.1 h)
  · exact .inl ⟨e, rfl⟩

theorem execBaseOffset_cases {s t : State} {a : Param} (h : exec (.baseOffset a) s = .next t) :
    Faults s t ∨ ∃ r, t = (s.setRb r).advance 2 := by
  rcases State.settle_eq_next.1 h with h | ⟨e, _, rfl⟩
  · obtain ⟨_, r, _, _, ht⟩ := State.offsetBase_eq_ok.1 h
    exact .inr ⟨r, ht⟩
  · exact .inl ⟨e, rfl⟩

/-- Every instruction answers a next state, in every state. -/
theorem exec_isNext (i : Instr) (s : State) : ∃ t, exec i s = .next t := by
  cases i with
  | input dst =>
    match hq : s.inq with
    | [] => exact ⟨_, execInput_nil hq⟩
    | v :: rest =>
      rw [execInput_cons hq]
      exact State.settle_isNext s _
  | halt => exact ⟨_, rfl⟩
  | _ => exact State.settle_isNext s _

end Sys2Proof.Machine
end

