-- ==== Sys2Proof/Laws/Memory.lean ====
section
/-! SUPPORT. The laws of memory: reads after writes, and that every memory operation keeps the canonical
form and stays inside the address space. -/

namespace Sys2Proof.Machine

/-! ## The canonical form, taken apart -/

theorem Memory.wfFrom_cons {lo a : Nat} {v : Word} {m : Memory} :
    Memory.wfFrom lo ((a, v) :: m) = true ↔ lo ≤ a ∧ v ≠ 0 ∧ Memory.wfFrom (a + 1) m = true := by
  simp only [Memory.wfFrom, Bool.and_eq_true, decide_eq_true_eq, and_assoc]

theorem Memory.wfFrom_mono {lo lo' : Nat} {m : Memory} (h : Memory.wfFrom lo m = true) (hl : lo' ≤ lo) :
    Memory.wfFrom lo' m = true := by
  cases m with
  | nil => rfl
  | cons c m =>
    rw [Memory.wfFrom_cons] at h ⊢
    exact ⟨by omega, h.2⟩

theorem Memory.wfFrom_put {lo a : Nat} {v : Word} {m : Memory} (h : Memory.wfFrom (a + 1) m = true)
    (ha : lo ≤ a) : Memory.wfFrom lo (Memory.put a v m) = true := by
  unfold Memory.put
  split
  · exact Memory.wfFrom_mono h (by omega)
  · exact Memory.wfFrom_cons.2 ⟨ha, ‹_›, h⟩

/-! ## Reads -/

theorem Memory.read_below_lo {lo : Nat} : ∀ {m : Memory}, Memory.wfFrom lo m = true → ∀ {a : Nat}, a < lo →
    m.read a = 0
  | [], _, _, _ => rfl
  | (b, w) :: m, h, a, ha => by
    rw [Memory.wfFrom_cons] at h
    have hab : a ≠ b := by omega
    simp only [Memory.read, if_neg hab]
    exact Memory.read_below_lo h.2.2 (by omega)

theorem Memory.read_put {lo a : Nat} {v : Word} {m : Memory} (h : Memory.wfFrom lo m = true) (ha : a < lo)
    (b : Nat) : (Memory.put a v m).read b = if b = a then v else m.read b := by
  unfold Memory.put
  split
  · split
    · subst_vars; exact Memory.read_below_lo h ha
    · rfl
  · rfl

/-- A read after a write: the word written, and everywhere else what was there before. -/
theorem Memory.read_write {lo : Nat} : ∀ {m : Memory}, Memory.wfFrom lo m = true → ∀ (a : Nat) (v : Word)
    (b : Nat), (m.write a v).read b = if b = a then v else m.read b
  | [], _, a, v, b => by
    exact Memory.read_put (lo := a + 1) (m := []) rfl (by omega) b
  | (c, w) :: m, h, a, v, b => by
    obtain ⟨_, hw, hm⟩ := Memory.wfFrom_cons.1 h
    simp only [Memory.write]
    split
    · exact Memory.read_put (Memory.wfFrom_cons.2 ⟨Nat.le_refl c, hw, hm⟩) (by omega) b
    · split
      · subst_vars
        rw [Memory.read_put hm (by omega)]
        by_cases hb : b = a <;> simp [Memory.read, hb]
      · have ih := Memory.read_write hm a v b
        simp only [Memory.read]
        split
        · subst_vars
          rw [if_neg (by omega)]
        · exact ih

theorem Memory.read_write_wf {m : Memory} (h : m.wf = true) (a : Nat) (v : Word) (b : Nat) :
    (m.write a v).read b = if b = a then v else m.read b := Memory.read_write h a v b

theorem Memory.read_ofProgram : ∀ (ws : List Word) (lo a : Nat),
    Memory.wfFrom lo (Memory.ofProgram lo ws) = true ∧
      (Memory.ofProgram lo ws).read a = if a < lo then 0 else ws.getD (a - lo) 0
  | [], lo, a => by simp [Memory.ofProgram, Memory.wfFrom, Memory.read]
  | w :: ws, lo, a => by
    obtain ⟨hwf, hr⟩ := Memory.read_ofProgram ws (lo + 1) a
    constructor
    · exact Memory.wfFrom_put hwf (Nat.le_refl lo)
    · rw [Memory.ofProgram, Memory.read_put hwf (by omega), hr]
      rcases Nat.lt_trichotomy a lo with h | h | h
      · simp [h, show a ≠ lo by omega, show a < lo + 1 by omega]
      · simp [h]
      · obtain ⟨k, rfl⟩ := Nat.exists_eq_add_of_lt h
        simp [show lo + k + 1 ≠ lo by omega, show ¬ lo + k + 1 < lo + 1 by omega,
          show ¬ lo + k + 1 < lo by omega, show lo + k + 1 - (lo + 1) = k by omega,
          show lo + k + 1 - lo = k + 1 by omega]

/-! ## Every operation keeps the canonical form -/

theorem Memory.wfFrom_write {a : Nat} {v : Word} : ∀ {m : Memory} {lo : Nat}, Memory.wfFrom lo m = true →
    lo ≤ a → Memory.wfFrom lo (m.write a v) = true
  | [], _, _, ha => Memory.wfFrom_put rfl ha
  | (c, w) :: m, lo, h, ha => by
    obtain ⟨hc, hw, hm⟩ := Memory.wfFrom_cons.1 h
    simp only [Memory.write]
    split
    · exact Memory.wfFrom_put (Memory.wfFrom_cons.2 ⟨by omega, hw, hm⟩) ha
    · split
      · subst_vars; exact Memory.wfFrom_put hm ha
      · exact Memory.wfFrom_cons.2 ⟨hc, hw, Memory.wfFrom_write hm (by omega)⟩

theorem Memory.wf_write {m : Memory} (h : m.wf = true) (a : Nat) (v : Word) : (m.write a v).wf = true :=
  Memory.wfFrom_write h (Nat.zero_le a)

theorem Memory.wf_ofProgram (ws : List Word) : (Memory.ofProgram 0 ws).wf = true :=
  (Memory.read_ofProgram ws 0 0).1

theorem Memory.wf_ofCells (n : Nat) : ∀ l, (Memory.ofCells n l).wf = true
  | [] => rfl
  | (a, v) :: l => by
    simp only [Memory.ofCells]
    split
    · exact Memory.wf_write (Memory.wf_ofCells n l) a v
    · exact Memory.wf_ofCells n l

theorem Memory.wf_writeWords (n : Nat) : ∀ (ws : List Word) (m : Memory) (a : Nat), m.wf = true →
    (Memory.writeWords n m a ws).wf = true
  | [], _, _, h => h
  | w :: ws, m, a, h => by
    refine Memory.wf_writeWords n ws _ (a + 1) ?_
    split
    · exact Memory.wf_write h a w
    · exact h

/-! ## Every operation stays inside the address space -/

theorem Memory.below_cons {n a : Nat} {v : Word} {m : Memory} :
    Memory.below n ((a, v) :: m) = true ↔ a < n ∧ m.below n = true := by
  simp only [Memory.below, List.all_cons, Bool.and_eq_true, decide_eq_true_eq]

theorem Memory.below_put {n a : Nat} {v : Word} {m : Memory} (h : m.below n = true) (ha : a < n) :
    (Memory.put a v m).below n = true := by
  unfold Memory.put
  split
  · exact h
  · exact Memory.below_cons.2 ⟨ha, h⟩

theorem Memory.below_write {n a : Nat} {v : Word} (ha : a < n) : ∀ {m : Memory}, m.below n = true →
    (m.write a v).below n = true
  | [], h => Memory.below_put h ha
  | (c, w) :: m, h => by
    obtain ⟨hc, hm⟩ := Memory.below_cons.1 h
    simp only [Memory.write]
    split
    · exact Memory.below_put h ha
    · split
      · exact Memory.below_put hm ha
      · exact Memory.below_cons.2 ⟨hc, Memory.below_write ha hm⟩

theorem Memory.below_ofCells (n : Nat) : ∀ l, (Memory.ofCells n l).below n = true
  | [] => rfl
  | (a, v) :: l => by
    simp only [Memory.ofCells]
    split
    · exact Memory.below_write ‹_› (Memory.below_ofCells n l)
    · exact Memory.below_ofCells n l

theorem Memory.below_ofProgram {n : Nat} : ∀ (ws : List Word) (a : Nat), a + ws.length ≤ n →
    (Memory.ofProgram a ws).below n = true
  | [], _, _ => rfl
  | w :: ws, a, h => by
    simp only [List.length_cons] at h
    exact Memory.below_put (Memory.below_ofProgram ws (a + 1) (by omega)) (by omega)

end Sys2Proof.Machine
end

