-- ==== Sys2Proof/Laws/PerInstr.lean ====
section
/-! SUPPORT. Statements about every instruction as syntax, one lemma per constructor. -/

namespace Sys2Proof.Laws.EncodeLength

/-- An instruction's words are as many as the length its opcode alone fixes (R64, R73), and its operand
words stand whole after the instruction word (R60, R65). -/
def Statement (i : Instr) : Prop :=
  (encode i).length = i.header.kind.length ∧ (encode i).drop 1 = i.operands

theorem add (a b dst : Param) : Statement (.add a b dst) := ⟨rfl, rfl⟩

theorem mul (a b dst : Param) : Statement (.mul a b dst) := ⟨rfl, rfl⟩

theorem input (dst : Param) : Statement (.input dst) := ⟨rfl, rfl⟩

theorem output (a : Param) : Statement (.output a) := ⟨rfl, rfl⟩

theorem jmpTrue (c target : Param) : Statement (.jmpTrue c target) := ⟨rfl, rfl⟩

theorem jmpFalse (c target : Param) : Statement (.jmpFalse c target) := ⟨rfl, rfl⟩

theorem lessThan (a b dst : Param) : Statement (.lessThan a b dst) := ⟨rfl, rfl⟩

theorem equals (a b dst : Param) : Statement (.equals a b dst) := ⟨rfl, rfl⟩

theorem baseOffset (a : Param) : Statement (.baseOffset a) := ⟨rfl, rfl⟩

theorem halt : Statement .halt := ⟨rfl, rfl⟩

end Sys2Proof.Laws.EncodeLength
end

