-- ==== Sys2Proof/Laws/Step.lean ====
section
/-! SUPPORT. What the fetch and one step can do, said once: the lemmas that proofs about `step` cite. -/

namespace Sys2Proof.Machine

/-! ## Fetch -/

theorem State.fetchHeader_eq_ok {s : State} {h : Header} : s.fetchHeader = .ok h ↔ Fetches s h := by
  unfold State.fetchHeader Fetches
  cases hr : s.readCell s.ip with
  | error f => simp [bind, Except.bind]
  | ok w => cases hd : decodeWord w <;> simp [bind, Except.bind, hd]

theorem State.fetchHeader_eq_error {s : State} {f : Fault} :
    s.fetchHeader = .error f ↔
      s.readCell s.ip = .error f ∨
        ∃ w e, s.readCell s.ip = .ok w ∧ decodeWord w = .error e ∧ f = faultOfWord e := by
  unfold State.fetchHeader
  cases hr : s.readCell s.ip with
  | error f => simp [bind, Except.bind]
  | ok w => cases hd : decodeWord w <;> simp [bind, Except.bind, hd, eq_comm]

/-- An operand word that was fetched lies in a cell (R85). -/
theorem State.operandWord_lt {s : State} {kind : Kind} {k : Nat} {w : Word}
    (h : s.operandWord kind k = .ok w) (hk : k < kind.paramCount) : s.ip + 1 + k < s.cfg.memCells := by
  rw [State.operandWord, if_pos hk] at h
  exact (State.readCell_eq_ok.1 h).2.1

theorem State.fetchOperands_eq_ok {s : State} {h : Header} {i : Instr} :
    s.fetchOperands h = .ok i ↔
      ∃ o0 o1 o2, s.operandWord h.kind 0 = .ok o0 ∧ s.operandWord h.kind 1 = .ok o1 ∧
        s.operandWord h.kind 2 = .ok o2 ∧ i = h.instr o0 o1 o2 := by
  unfold State.fetchOperands
  cases h0 : s.operandWord h.kind 0 <;> cases h1 : s.operandWord h.kind 1 <;>
    cases h2 : s.operandWord h.kind 2 <;> simp [bind, Except.bind, eq_comm]

/-- A kind has at most three parameters (R8). -/
theorem Kind.paramCount_le (k : Kind) : k.paramCount ≤ 3 := by cases k <;> decide

/-- An instruction that was fetched whole ends at or before the last cell, so the default advance leaves
`ip` at most at `MEM_CELLS` (R21). -/
theorem State.fetchOperands_end {s : State} {h : Header} {i : Instr} (hf : Fetches s h)
    (ho : s.fetchOperands h = .ok i) : 0 ≤ s.ip ∧ s.ip + h.kind.length ≤ s.cfg.memCells := by
  obtain ⟨w, hw, _⟩ := hf
  obtain ⟨h0, h1, _⟩ := State.readCell_eq_ok.1 hw
  obtain ⟨o0, o1, o2, e0, e1, e2, _⟩ := State.fetchOperands_eq_ok.1 ho
  have hk := Kind.paramCount_le h.kind
  have hl : h.kind.length = h.kind.paramCount + 1 := rfl
  refine ⟨h0, ?_⟩
  rcases Nat.eq_zero_or_pos h.kind.paramCount with hn | hn
  · omega
  · rcases Nat.lt_or_ge 1 h.kind.paramCount with hn' | hn'
    · rcases Nat.lt_or_ge 2 h.kind.paramCount with hn'' | hn''
      · have := State.operandWord_lt e2 hn''; omega
      · have := State.operandWord_lt e1 hn'; omega
    · have := State.operandWord_lt e0 hn; omega

/-- Everything stages 1 to 4 can come to. -/
theorem State.fetch_cases (s : State) :
    (∃ f, s.fetch = .finish (s.takeFault f)) ∨
      (∃ h, Fetches s h ∧ h.kind = .input ∧ s.inq = [] ∧ s.fetch = .finish s.starve) ∨
      (∃ h i, Fetches s h ∧ ¬(h.kind = .input ∧ s.inq = []) ∧ s.fetchOperands h = .ok i ∧
        s.fetch = .execute i) := by
  unfold State.fetch
  cases hh : s.fetchHeader with
  | error f => exact .inl ⟨f, rfl⟩
  | ok h =>
    have hf := State.fetchHeader_eq_ok.1 hh
    by_cases hi : h.kind = .input ∧ s.inq = []
    · exact .inr (.inl ⟨h, hf, hi.1, hi.2, by simp [hi]⟩)
    · cases ho : s.fetchOperands h with
      | error f => exact .inl ⟨f, by simp [hi, ho]⟩
      | ok i => exact .inr (.inr ⟨h, i, hf, hi, ho, by simp [hi, ho]⟩)

/-! ## One step -/

theorem step_of_not_running {s : State} (h : s.engine ≠ .running) : step s = .next s := by
  unfold step State.nextAction
  cases he : s.engine <;> simp_all

theorem State.nextAction_of_running {s : State} (h : s.engine = .running) : s.nextAction = s.fetch := by
  simp only [State.nextAction, h]

/-- Everything one step of a RUN can do. -/
theorem step_cases {s t : State} (hr : s.engine = .running) (h : step s = .next t) :
    Faults s t ∨ (s.inq = [] ∧ s.strict = false ∧ t = s.suspend ∧ ∃ hd, Fetches s hd ∧ hd.kind = .input) ∨
      ∃ hd i, Fetches s hd ∧ s.fetchOperands hd = .ok i ∧ s.nextAction = .execute i ∧
        exec i s = .next t := by
  have ha := State.nextAction_of_running hr
  rcases s.fetch_cases with ⟨f, hf⟩ | ⟨hd, hF, hk, hq, hf⟩ | ⟨hd, i, hF, _, ho, hf⟩
  · simp only [step, ha, hf] at h
    cases h
    exact .inl ⟨f, rfl⟩
  · simp only [step, ha, hf] at h
    cases h
    rcases s.starve_cases with ⟨hs, ht⟩ | ⟨_, ht⟩
    · exact .inr (.inl ⟨hq, hs, ht, hd, hF, hk⟩)
    · exact .inl ⟨_, ht⟩
  · refine .inr (.inr ⟨hd, i, hF, ho, by rw [ha, hf], ?_⟩)
    simpa only [step, ha, hf] using h

/-- Every step answers a next state. -/
theorem step_isNext (s : State) : ∃ t, step s = .next t := by
  unfold step
  cases s.nextAction with
  | finish t => exact ⟨t, rfl⟩
  | execute i => exact exec_isNext i s

end Sys2Proof.Machine
end

