-- ==== Sys2Proof/Tests/Slice0.lean ====
section
/-! SUPPORT. Tests of the model, each with its expected result taken from `spec/`, and for every statement
with hypotheses a concrete state and operands that meet them (the `witness_` theorems). -/

namespace Sys2Proof.Tests

open Sys2Proof Sys2Proof.Machine

/-! ## Helpers -/

/-- A machine with the given program in memory and a RUN in progress. -/
def running (program : List Word) : State :=
  { State.reset with mem := Memory.ofProgram 0 program, engine := .running }

/-- The same, with values in the input queue. -/
def runningWith (program inputs : List Word) : State := { running program with inq := inputs }

/-- The same, with `MEM_CELLS` cells. -/
def runningIn (cells : Nat) (program : List Word) : State :=
  { running program with cfg := { Config.standard with memCells := cells } }

/-- A field of the next state, where there is one. -/
def after {α : Type} (o : Host.Outcome State Fault Refusal) (f : State → α) : Option α :=
  match o with
  | .next t => some (f t)
  | .fault _ => none
  | .refused _ => none

/-- A field of the state an accepted transaction leaves, and its result. -/
def replied {α : Type} (r : Reply) (f : State → α) : Option (Result × α) :=
  match r with
  | .refused => none
  | .accepted x t => some (x, f t)
  | .notEnded => none

/-- What a step's fault entry records. -/
def recorded (t : State) : EngineState × Option Fault × Int := (t.engine, t.fault, t.faultIp)

/-- Parameters in each mode. -/
def pos (w : Word) : Param := ⟨.position, w⟩
def imm (w : Word) : Param := ⟨.immediate, w⟩
def rel (w : Word) : Param := ⟨.relative, w⟩

/-- The largest and the smallest word. -/
def big : Word := 9223372036854775807
def small : Word := -9223372036854775808

/-! ## Well-formedness: an ill-formed term for each check -/

theorem test_wf_refuses_add : Instr.wf (.add (pos 0) (pos 0) (imm 5)) = false := by decide
theorem test_wf_refuses_mul : Instr.wf (.mul (pos 0) (pos 0) (imm 5)) = false := by decide
theorem test_wf_refuses_input : Instr.wf (.input (imm 5)) = false := by decide
theorem test_wf_refuses_lessThan : Instr.wf (.lessThan (pos 0) (pos 0) (imm 5)) = false := by decide
theorem test_wf_refuses_equals : Instr.wf (.equals (pos 0) (pos 0) (imm 5)) = false := by decide
theorem test_wf_accepts_add : Instr.wf (.add (imm 0) (imm 0) (rel 5)) = true := by decide

/-! ## Decoding: words written out digit by digit from the encoding of R61, R63, R64 -/

/-- R66: C = 2, B = 1, A = 0, OP = 01. -/
theorem test_decode_add : decode [21001, 7, 8, 9] = .ok (.add (pos 7) (imm 8) (rel 9), []) := rfl
/-- R61's own example: `1002` has B = 1 and OP = 02. -/
theorem test_decode_mul : decode [1002, 4, 3, 4] = .ok (.mul (pos 4) (imm 3) (pos 4), []) := rfl
theorem test_decode_input : decode [203, 7] = .ok (.input (rel 7), []) := rfl
theorem test_decode_output : decode [104, 7] = .ok (.output (imm 7), []) := rfl
theorem test_decode_jmpTrue : decode [2105, 1, 4] = .ok (.jmpTrue (imm 1) (rel 4), []) := rfl
theorem test_decode_jmpFalse : decode [1206, 0, 16] = .ok (.jmpFalse (rel 0) (imm 16), []) := rfl
theorem test_decode_lessThan : decode [1107, -5, 3, 9] = .ok (.lessThan (imm (-5)) (imm 3) (pos 9), []) := rfl
theorem test_decode_equals : decode [20108, 1, 2, 3] = .ok (.equals (imm 1) (pos 2) (rel 3), []) := rfl
theorem test_decode_baseOffset : decode [109, 2000] = .ok (.baseOffset (imm 2000), []) := rfl
theorem test_decode_halt : decode [99, 5] = .ok (.halt, [5]) := rfl

/-- 95_test_vectors 2.1. -/
theorem test_decode_zero : decodeWord 0 = .error .invalidOpcode := by decide
theorem test_decode_12345 : decodeWord 12345 = .error .invalidOpcode := by decide
theorem test_decode_negative : decodeWord (-99) = .error .invalidOpcode := by decide
theorem test_decode_mode3 : decodeWord 301 = .error .invalidMode := by decide
theorem test_decode_mode_before_write : decodeWord 30001 = .error .invalidMode := by decide
theorem test_decode_surplus_halt : decodeWord 1099 = .error .invalidMode := by decide
theorem test_decode_surplus_output : decodeWord 10004 = .error .invalidMode := by decide
theorem test_decode_surplus_add : decodeWord 100001 = .error .invalidMode := by decide
theorem test_decode_write_immediate : decodeWord 10001 = .error .invalidWriteMode := by decide
theorem test_decode_103 : decodeWord 103 = .error .invalidWriteMode := by decide

/-- The host's numbering: bit 0 is the least significant bit of the first word. -/
theorem test_table_word : decodeTableWord 256 (1101 + 100 * 2 ^ 64 + 7 * 2 ^ 192) =
    some (.add (imm 100) (imm 0) (pos 7)) := by decide
theorem test_table_word_short : decodeTableWord 8 99 = some .halt := by decide
theorem test_fetch_word_runs : after (step (State.reset.withFetchWord 64 99)) (·.engine) = some .halted := by
  decide
theorem test_fetch_word_adds : after (step (State.reset.withFetchWord 64 1101)) (·.ip) = some 4 := by decide

/-! ## One step of each instruction (95_test_vectors) -/

/-- 2.2: writes its own instruction word, and still advances by 4. -/
theorem test_add_over_itself : after (step (running [1101, 1, 98, 0, 99])) (fun t => (t.mem.read 0, t.ip)) =
    some (99, 4) := by decide
theorem test_add_overflow : after (step (running [1101, big, 1, 5, 99, 0])) recorded =
    some (.faulted, some .overflow, 0) := by decide
/-- S3. -/
theorem test_mul : after (step (running [1002, 4, 3, 4, 33])) (·.mem.read 4) = some 99 := by decide
theorem test_mul_overflow : after (step (running [1102, -1, small, 5, 99, 0])) recorded =
    some (.faulted, some .overflow, 0) := by decide
/-- 2.3: the comparison is signed. -/
theorem test_lessThan_signed : after (step (running [1107, -1, 0, 5, 99, 0])) (·.mem.read 5) = some 1 := by
  decide
theorem test_lessThan_extremes : after (step (running [1107, big, small, 5, 99, 0])) (·.mem.read 5) =
    some 0 := by decide
theorem test_equals_same : after (step (running [1108, -1, -1, 5, 99, 0])) (·.mem.read 5) = some 1 := by decide
theorem test_equals_extremes : after (step (running [1108, small, big, 5, 99, 0])) (·.mem.read 5) =
    some 0 := by decide
/-- 2.4. -/
theorem test_jmpTrue_negative : after (step (running [1105, -1, 4, 0, 99])) (·.ip) = some 4 := by decide
/-- 2.4: not taken, but the target's address is resolved and fails. -/
theorem test_jmpTrue_resolves : after (step (running [105, 0, -1, 99])) recorded =
    some (.faulted, some .negativeAddress, 0) := by decide
theorem test_jmpFalse_taken : after (step (running [1106, 0, 4, 0, 99])) (·.ip) = some 4 := by decide
theorem test_jmpFalse_falls : after (step (running [1106, 5, 4, 99, 0])) (·.ip) = some 3 := by decide
theorem test_halt : after (step (running [99])) (fun t => (t.engine, t.ip, t.done)) = some (.halted, 0, 1) := by
  decide
/-- S2. -/
theorem test_input : after (step (runningWith [3, 0, 4, 0, 99] [5])) (fun t => (t.mem.read 0, t.inq, t.ip)) =
    some (5, [], 2) := by decide
/-- 2.5: nothing is consumed, and `ip` stays. -/
theorem test_input_suspends : after (step (running [3, 0, 99])) (fun t => (t.engine, t.ip, t.mem.read 0)) =
    some (.suspended, 0, 3) := by decide
/-- S5. -/
theorem test_output : after (step (running [104, 1125899906842624, 99])) (fun t => (t.out, t.ip)) =
    some ([1125899906842624], 2) := by decide
theorem test_output_full : after (step { running [104, 2, 99] with
    cfg := { Config.standard with outqCapacity := some 1 }, out := [1] }) recorded =
    some (.faulted, some .outputFull, 0) := by decide
/-- 2.6: `a` is read with the old `rb`: `M[4 + 0] = 99`. -/
theorem test_baseOffset_old_rb : after (step { running [109, 4, 209, 0, 99, 7] with ip := 2, rb := 4 })
    (fun t => (t.rb, t.ip)) = some (103, 4) := by decide
theorem test_baseOffset_overflow : after (step { running [109, big, 109, 1, 99] with ip := 2, rb := big })
    recorded = some (.faulted, some .overflow, 2) := by decide
/-- 2.6: the exact sum `2^64 - 2` is no address. -/
theorem test_relative_exact : after (step { running [109, big, 204, big, 99] with ip := 2, rb := big })
    recorded = some (.faulted, some .addressOutOfRange, 2) := by decide
/-- 2.7: the operand word at 3 is past the last cell. -/
theorem test_operand_past_end : after (step (runningIn 3 [1101, 1, 1])) recorded =
    some (.faulted, some .addressOutOfRange, 0) := by decide

/-! ## Transactions (95_test_vectors 2.8) -/

theorem test_power_on_status : (State.powerOn Config.standard).status = 0 := by decide
theorem test_load_run_status : replied (transact 0 (.load [99] []) State.reset) (·.status) =
    some (.done, 1) := by decide
theorem test_run_halts : replied (transact 1 (.run [] false) { State.reset with mem := [(0, 99)] }) (·.status) =
    some (.halted none, 12) := by decide
theorem test_run_suspends :
    replied (transact 1 (.run [] false) { State.reset with mem := [(0, 3), (2, 99)] }) (·.status) =
    some (.suspended none, 3) := by decide
theorem test_run_faults : replied (transact 1 (.run [] false) State.reset) (fun t => (t.status, t.faultIp)) =
    some (.faulted 1, (261, 0)) := by decide
theorem test_strict_run_underflows :
    replied (transact 1 (.run [] true) { State.reset with mem := [(0, 3), (2, 99)] }) recorded =
    some (.faulted 3, (.faulted, some .inputUnderflow, 0)) := by decide
theorem test_peek_negative : transact 0 (.peek (-1)) State.reset = .refused := by decide
theorem test_peek_unwritten : replied (transact 0 (.peek 123) State.reset) (·.ip) = some (.word 0, 0) := by
  decide
theorem test_get_output : getOutput 2 { State.reset with out := [3, 4, 5] } = .lastN [4, 5] := by decide
theorem test_get_output_too_many : getOutput 4 { State.reset with out := [3, 4, 5] } = .refused := by decide

/-! ## Memory -/

theorem test_reset_memory_wf : Memory.wf State.reset.mem = true := by decide
theorem test_write_zero_removes : Memory.write [(3, 7), (5, 1)] 3 0 = [(5, 1)] := by decide
theorem test_wf_refuses_order : Memory.wf [(5, 1), (3, 7)] = false := by decide
theorem test_wf_refuses_zero : Memory.wf [(3, 0)] = false := by decide

/-! ## Witnesses: a state and operands that meet the hypotheses of each statement -/

theorem witness_DecodeOfEncodeIsTheInstruction : Instr.wf (.add (rel 1) (imm big) (rel small)) = true := by
  decide

/-- Each clause of the table: the highest word of a row, and the word after it. -/
theorem witness_LegalWordsAreTheTable : (decodeWord 22208 = .ok ⟨.equals, .relative, .relative, .relative⟩) ∧
    22208 ∈ legalWords .equals ∧ (decodeWord 22209 = .error .invalidMode) ∧
    (running [22209]).readCell 0 = .ok 22209 := ⟨rfl, by decide, rfl, rfl⟩

theorem witness_UnknownOpcodesFault : (running [10]).engine = .running ∧
    (running [10]).readCell (running [10]).ip = .ok 10 ∧ 0 ≤ BitVec.toInt (10 : Word) ∧
    BitVec.toInt (10 : Word) % 100 ∉ ([1, 2, 3, 4, 5, 6, 7, 8, 9, 99] : List Int) :=
  ⟨rfl, rfl, by decide, by decide⟩

theorem witness_ImmediateWriteParametersFault : (running [103]).readCell 0 = .ok 103 ∧
    BitVec.toInt (103 : Word) % 100 = Kind.input.opcode ∧
    (∀ k < Kind.input.paramCount, digit (103 : Word).toNat (2 + k) ≤ 2) ∧
    (103 : Word).toNat < 10 ^ (2 + Kind.input.paramCount) ∧
    Kind.input.roles[0]? = some .write ∧ digit (103 : Word).toNat (2 + 0) = 1 :=
  ⟨rfl, by decide, by decide, by decide, by decide, by decide⟩

/-- The clauses: a negative word, the first mode digit that names no mode, the first surplus digit. -/
theorem witness_NegativeAndMisModedWordsFault : (running [-1]).readCell 0 = .ok (-1) ∧
    BitVec.toInt (-1 : Word) < 0 ∧ (running [301]).readCell 0 = .ok 301 ∧
    BitVec.toInt (301 : Word) % 100 = Kind.add.opcode ∧ digit (301 : Word).toNat 2 = 3 ∧
    BitVec.toInt (199 : Word) % 100 = Kind.halt.opcode ∧
    10 ^ (2 + Kind.halt.paramCount) ≤ (199 : Word).toNat :=
  ⟨rfl, by decide, rfl, by decide, by decide, by decide, by decide⟩

/-- The words at `ip` are those that decode, one by one. -/
theorem wordsAtIp_104 : WordsAtIp (running [104, 7]) [104, 7] := by
  intro k w h
  match k with
  | 0 => cases h; rfl
  | 1 => cases h; rfl
  | n + 2 => simp at h

theorem witness_StepRunsTheDecodedInstruction : (running [104, 7]).engine = .running ∧
    WordsAtIp (running [104, 7]) [104, 7] ∧ decode [104, 7] = .ok (.output (imm 7), []) :=
  ⟨rfl, wordsAtIp_104, rfl⟩

/-- One state for each of the four outcomes. -/
theorem witness_StepHasOneOfFourOutcomes : (running [104, 7]).engine = .running ∧
    after (step (running [104, 7])) (·.engine) = some .running ∧
    after (step (running [99])) (·.engine) = some .halted ∧
    after (step (running [3])) (·.engine) = some .suspended ∧
    after (step (running [])) (·.engine) = some .faulted := by decide

theorem witness_EngineIdlesUnlessRunning : State.reset.engine ≠ .running := by decide

/-- Each clause at the edge of its range: the addresses -1 and `MEM_CELLS`, and an unwritten cell. -/
theorem witness_FetchFaults : (running []).engine = .running ∧ ({ running [] with ip := -1 } : State).ip < 0 ∧
    ((runningIn 8 []).cfg.memCells : Int) ≤ ({ runningIn 8 [] with ip := 8 } : State).ip ∧
    (running []).mem.read 0 = 0 := by decide

theorem fetches_input : Fetches (running [3]) ⟨.input, .position, .position, .position⟩ := ⟨3, rfl, rfl⟩

theorem witness_EmptyQueueEndsTheStep : (running [3]).engine = .running ∧
    Fetches (running [3]) ⟨.input, .position, .position, .position⟩ ∧ (running [3]).inq = [] ∧
    (running [3]).strict = false ∧ ({ running [3] with strict := true } : State).strict = true :=
  ⟨rfl, fetches_input, rfl, rfl, rfl⟩

/-- Both clauses at the edge: an ADD whose last operand word is just past the last cell, and just in it. -/
theorem witness_OperandFetch : Fetches (runningIn 3 [1]) ⟨.add, .position, .position, .position⟩ ∧
    ((runningIn 3 [1]).cfg.memCells : Int) ≤ (runningIn 3 [1]).ip + 1 + 2 ∧
    Fetches (runningIn 4 [1]) ⟨.add, .position, .position, .position⟩ ∧
    (∀ k : Nat, k < Kind.add.paramCount → (runningIn 4 [1]).ip + 1 + k < (runningIn 4 [1]).cfg.memCells) := by
  refine ⟨⟨1, rfl, rfl⟩, by decide, ⟨1, rfl, rfl⟩, ?_⟩
  intro k hk
  have : k < 3 := hk
  show (0 : Int) + 1 + k < 4
  omega

/-- The addresses -1, 0, the last cell and the one past it. -/
theorem witness_AddressCheck : (runningIn 8 []).check (-1) = .error .negativeAddress ∧
    (runningIn 8 []).check 0 = .ok 0 ∧ (runningIn 8 []).check 7 = .ok 7 ∧
    (runningIn 8 []).check 8 = .error .addressOutOfRange := ⟨rfl, rfl, rfl, rfl⟩

theorem witness_ReadParameterModes : (runningIn 8 [5]).readParam (pos 0) = .ok 5 ∧
    (runningIn 8 [5]).readParam (pos 8) = .error .addressOutOfRange ∧
    ({ runningIn 8 [5] with rb := -7 } : State).readParam (rel 7) = .ok 5 ∧
    ({ runningIn 8 [5] with rb := -7 } : State).readParam (rel 6) = .error .negativeAddress :=
  ⟨rfl, rfl, rfl, rfl⟩

/-- ADD: both sides of the fit, and a failing operand in each place. -/
theorem witness_AddMeaning : (running []).readParam (imm big) = .ok big ∧
    (running []).readParam (imm 0) = .ok 0 ∧ (running []).writeAddr (pos 5) = .ok 5 ∧
    fits64 (big.toInt + (0 : Word).toInt) ∧ ¬fits64 (big.toInt + (1 : Word).toInt) ∧
    (running []).readParam (pos (-1)) = .error .negativeAddress ∧
    (running []).writeAddr (pos (-1)) = .error .negativeAddress :=
  ⟨rfl, rfl, rfl, by decide, by decide, rfl, rfl⟩

theorem witness_MulMeaning : fits64 ((-4611686018427387904 : Word).toInt * (2 : Word).toInt) ∧
    ¬fits64 (small.toInt * (-1 : Word).toInt) ∧
    (running []).readParam (imm small) = .ok small ∧ (running []).writeAddr (pos 0) = .ok 0 :=
  ⟨by decide, by decide, rfl, rfl⟩

theorem witness_LessThanMeaning : (running []).readParam (imm (-1)) = .ok (-1) ∧
    (-1 : Word).toInt < (0 : Word).toInt ∧ (0 : Word).toInt ≤ (0 : Word).toInt ∧
    (running []).writeAddr (pos 5) = .ok 5 := ⟨rfl, by decide, by decide, rfl⟩

theorem witness_EqualsMeaning : (running []).readParam (imm small) = .ok small ∧ small ≠ big ∧
    (running []).writeAddr (pos 5) = .ok 5 := ⟨rfl, by decide, rfl⟩

theorem witness_JmpTrueMeaning : (running []).readParam (imm (-1)) = .ok (-1) ∧ (-1 : Word) ≠ 0 ∧
    (running []).readParam (pos 9) = .ok 0 ∧ (running []).readParam (pos small) = .error .negativeAddress :=
  ⟨rfl, by decide, rfl, rfl⟩

theorem witness_JmpFalseMeaning : (running []).readParam (pos 9) = .ok 0 ∧
    (running []).readParam (imm 5) = .ok 5 ∧ (5 : Word) ≠ 0 := ⟨rfl, rfl, by decide⟩

theorem witness_InputMeaning : (runningWith [3] [5, 6]).inq = 5 :: [6] ∧
    (runningWith [3] [5, 6]).writeAddr (pos 0) = .ok 0 ∧
    (runningWith [3] [5, 6]).writeAddr (pos (-1)) = .error .negativeAddress ∧ (running [3]).inq = [] ∧
    (running [3]).strict = false := ⟨rfl, rfl, rfl, rfl, rfl⟩

/-- OUTPUT with no capacity, with the last free place, and with none. -/
theorem witness_OutputMeaning : (running []).readParam (imm 7) = .ok 7 ∧
    (running []).cfg.outqCapacity = none ∧
    ({ running [] with cfg := { Config.standard with outqCapacity := some 1 }, out := [1] } : State).out.length
      = 1 ∧
    (running []).readParam (pos (-1)) = .error .negativeAddress := ⟨rfl, rfl, rfl, rfl⟩

theorem witness_BaseOffsetMeaning : (running []).readParam (imm big) = .ok big ∧
    fits64 ((running []).rb.toInt + big.toInt) ∧
    ¬fits64 (({ running [] with rb := 1 } : State).rb.toInt + big.toInt) ∧
    (running []).readParam (rel (-1)) = .error .negativeAddress := ⟨rfl, by decide, by decide, rfl⟩

/-- Both bounds of the fit, and the integers just outside them. -/
theorem witness_FittingResultsAreExact : fits64 9223372036854775807 ∧ fits64 (-9223372036854775808) ∧
    ¬fits64 9223372036854775808 ∧ ¬fits64 (-9223372036854775809) := by decide

theorem witness_AddAndMulCommute : (running [6, 7]).readParam (pos 0) = .ok 6 ∧
    (running [6, 7]).readParam (pos 1) = .ok 7 := ⟨rfl, rfl⟩

/-- Both jumps taken, to a negative target and to one past the last cell. -/
theorem witness_BadJumpTargetFaultsAtTheNextFetch : (running []).engine = .running ∧
    (running []).readParam (imm 1) = .ok 1 ∧ (running []).readParam (imm (-3)) = .ok (-3) ∧
    exec (.jmpTrue (imm 1) (imm (-3))) (running []) = .next { running [] with ip := -3 } ∧
    exec (.jmpFalse (imm 0) (imm 8)) (runningIn 8 []) = .next { runningIn 8 [] with ip := 8 } ∧
    (-3 : Word).toInt < 0 ∧ ((runningIn 8 []).cfg.memCells : Int) ≤ (8 : Word).toInt :=
  ⟨rfl, rfl, rfl, rfl, rfl, by decide, by decide⟩

theorem witness_ComparisonsWriteZeroOrOne :
    after (exec (.lessThan (imm 1) (imm 2) (pos 5)) (running [])) (·.mem.read 5) = some 1 ∧
    after (exec (.equals (imm 1) (imm 2) (pos 5)) (running [])) (·.mem.read 5) = some 0 ∧
    after (exec (.equals (imm 1) (pos 8) (pos (-1))) (runningIn 8 [])) recorded =
      some (.faulted, some .addressOutOfRange, 0) ∧
    after (exec (.lessThan (imm 1) (imm 2) (pos (-1))) (running [])) recorded =
      some (.faulted, some .negativeAddress, 0) := by decide

/-- A jump that is taken, one that is not, and an INPUT. -/
theorem witness_DefaultAdvance :
    exec (.jmpTrue (imm 1) (imm 9)) (running []) = .next { running [] with ip := 9 } ∧
    ¬Faults (running []) { running [] with ip := 9 } ∧
    JumpTaken (running []) (.jmpTrue (imm 1) (imm 9)) ∧
    exec (.jmpFalse (imm 1) (imm 9)) (running []) = .next { running [] with ip := 3 } ∧
    exec (.input (pos 0)) (runningWith [] [0]) = .next { running [] with ip := 2 } := by
  refine ⟨rfl, ?_, ⟨imm 1, imm 9, 1, rfl, .inl ⟨rfl, by decide⟩⟩, rfl, rfl⟩
  rintro ⟨f, h⟩
  exact absurd (congrArg State.engine h) (by rw [State.takeFault_engine]; decide)

theorem witness_StoringFrame : (running [1]).mem.wf = true ∧
    after (exec (.add (imm 1) (imm 2) (pos 5)) (running [1])) (fun t => (t.mem.read 5, t.mem.read 0)) =
      some (3, 1) ∧
    after (exec (.input (pos 5)) (runningWith [1] [8])) (fun t => (t.mem.read 5, t.inq)) = some (8, []) := by
  decide

theorem witness_NonStoringFrame :
    after (exec (.output (imm 7)) (running [1])) (·.out) = some [7] ∧
    after (exec (.baseOffset (imm 7)) (running [1])) (·.rb) = some 7 ∧
    after (exec (.jmpFalse (imm 0) (imm 7)) (running [1])) (·.ip) = some 7 ∧
    after (exec .halt (running [1])) (·.ip) = some 0 := by decide

/-- A sound state with memory, a queue and a capacity of its own. -/
def soundState : State :=
  { running [104, 7, 99] with
    cfg := { memCells := 8, inqCapacity := some 2, outqCapacity := some 1 }, inq := [1, 2] }

theorem soundState_inv : soundState.Inv := by
  refine ⟨by decide, by decide, by decide, by decide, by decide, by decide, by decide, by decide⟩

/-- FAULTED states can be sound too: the entry of a fault at a concrete state. The first and last rows of each
table have a state. -/
theorem witness_StatusFields : soundState.Inv ∧ (soundState.takeFault .overflow).status = 1797 ∧
    (EngineState.unloaded, 0) ∈ stateNumbers ∧ (State.powerOn Config.standard).engine = .unloaded ∧
    (EngineState.faulted, 5) ∈ stateNumbers ∧ (soundState.takeFault .outputFull).engine = .faulted ∧
    (Fault.invalidOpcode, 1) ∈ faultNumbers ∧ (soundState.takeFault .invalidOpcode).status = 261 ∧
    (Fault.outputFull, 8) ∈ faultNumbers ∧ (soundState.takeFault .outputFull).status = 2053 ∧
    soundState.fault = none :=
  ⟨soundState_inv, by decide⟩

/-- The hypothesis of the last clause, at the default parameters and at the smallest ones. -/
theorem witness_PowerOnIsUnloaded : Config.standard.wf = true ∧ Config.wf ⟨1, some 1, some 1⟩ = true := by decide

theorem witness_StoreIsSeenAtOnce : (running [1]).mem.wf = true ∧ (running [1]).ip = (0 : Nat) ∧
    0 < (running [1]).cfg.memCells ∧ decodeWord 99 = .ok ⟨.halt, .position, .position, .position⟩ :=
  ⟨by decide, rfl, by decide, rfl⟩

theorem witness_CanonicalMemoriesAreEqualWhenTheyReadEqual :
    Memory.wf [(3, 7), (5, 1)] = true ∧ Memory.write [(3, 7)] 5 1 = [(3, 7), (5, 1)] := by decide

theorem witness_StepKeepsTheInvariant : soundState.Inv ∧ after (step soundState) (·.out) = some [7] :=
  ⟨soundState_inv, by decide⟩

theorem witness_TransactionsKeepTheInvariant : State.Inv { soundState with engine := .ready } ∧
    replied (transact 2 (.run [] false) { soundState with engine := .ready }) (·.engine) =
      some (.halted (some 7), .halted) := by
  refine ⟨⟨?_, ?_, ?_, ?_, ?_, ?_, ?_, ?_⟩, ?_⟩ <;> decide

theorem witness_OnlyBaseOffsetChangesRb : (running [109, 5]).engine = .running ∧
    after (step (running [109, 5])) (fun t => (t.engine, t.rb)) = some (.running, 5) ∧
    (running [109, 5]).rb ≠ 5 := by decide

theorem witness_QueuesMoveOnlyByInputAndOutput :
    after (step (runningWith [3, 0] [5])) (fun t => (t.engine, t.inq)) = some (.running, []) ∧
    after (step (running [104, 7])) (fun t => (t.engine, t.out)) = some (.running, [7]) := by decide

theorem witness_RunsEndOnlyInThreeStates : (running [99]).engine = .running ∧
    (runLoop 1 (running [99])).isSome = true := by decide

/-- 95_test_vectors 2.4: a jump to itself. -/
theorem witness_StepToItselfHangs : (running [1105, 1, 0]).engine = .running ∧
    step (running [1105, 1, 0]) = .next (running [1105, 1, 0]) := ⟨rfl, rfl⟩

/-- A run that suspends, one that halts, and one that has not ended. -/
theorem witness_StrictRunsDifferOnlyWhereNonStrictSuspends : (running [3]).engine = .running ∧
    (running [3]).fault = none ∧
    (runLoop 1 { running [3] with strict := false }).map (·.engine) = some .suspended ∧
    (runLoop 1 { running [99] with strict := false }).map (·.engine) = some .halted ∧
    runLoop 2 { running [1105, 1, 0] with strict := false } = none := by decide

theorem witness_StepsKeepTheParameters :
    after (step { soundState with strict := true }) (fun t => (t.strict, t.cfg.memCells)) = some (true, 8) := by
  decide

theorem witness_RunReturnsItsOutcome : State.reset.engine.usable = true ∧
    replied (transact 1 (.run [] false) { State.reset with mem := [(0, 99)] }) (·.done) =
      some (.halted none, 1) ∧
    ({ soundState with engine := .ready } : State).cfg.inqCapacity = some 2 ∧
    2 < ({ soundState with engine := .ready } : State).inq.length + [(7 : Word)].length := by decide

theorem witness_PushInputAppends : State.reset.engine.usable = true ∧ State.reset.cfg.inqCapacity = none ∧
    ({ soundState with engine := .ready } : State).cfg.inqCapacity = some 2 ∧
    2 ≤ ({ soundState with engine := .ready } : State).inq.length := by decide

theorem witness_HaltedIsTerminal : ({ State.reset with engine := .halted } : State).engine = .halted ∧
    State.inqRoom { State.reset with engine := .halted } 1 = true ∧
    replied (transact 0 (.poke 0 5) { State.reset with engine := .halted }) (·.engine) =
      some (.done, .halted) := by decide

theorem witness_ResumingWithNoInputSuspendsAgain :
    ({ running [3] with engine := .suspended } : State).engine = .suspended ∧ (running [3]).inq = [] ∧
    Fetches { running [3] with engine := .suspended } ⟨.input, .position, .position, .position⟩ :=
  ⟨rfl, rfl, 3, rfl, rfl⟩

theorem witness_ResumingExecutesThePendingInput :
    WordsAtIp { running [203, 1] with engine := .suspended } [203, 1] ∧
    decode [203, 1] = .ok (.input (rel 1), []) ∧
    State.writeAddr { running [203, 1] with engine := .suspended } (rel 1) = .ok 1 := by
  refine ⟨?_, rfl, rfl⟩
  intro k w h
  match k with
  | 0 => cases h; rfl
  | 1 => cases h; rfl
  | n + 2 => simp at h

theorem witness_RunWithInputsIsPushesThenRun : State.reset.engine.usable = true ∧
    State.reset.inqRoom ([(7 : Word)].length + 1) = true := by decide

/-- Each clause: a program and inputs that just fit, and one word or value more. -/
theorem witness_LoadSetsTheState : ({ soundState with engine := .ready } : State).engine ≠ .running ∧
    soundState.cfg.memCells < (List.replicate 9 (1 : Word)).length ∧
    (List.replicate 8 (1 : Word)).length ≤ soundState.cfg.memCells ∧
    soundState.cfg.inqCapacity = some 2 ∧ 2 < [(1 : Word), 2, 3].length ∧ [(1 : Word), 2].length ≤ 2 := by
  decide

/-- PEEK and POKE at the first and the last cell, and just outside. -/
theorem witness_PeekAndPoke : State.reset.engine.usable = true ∧ State.reset.mem.wf = true ∧
    replied (transact 0 (.poke 7 5) { soundState with engine := .ready }) (·.mem.read 7) = some (.done, 5) ∧
    transact 0 (.poke 8 5) { soundState with engine := .ready } = .refused ∧
    transact 0 (.peek (-1)) { soundState with engine := .ready } = .refused := by decide

theorem witness_OutputReading : State.reset.engine.usable = true ∧
    ([3, 4] : List Word)[1]? = some 4 ∧ ([3, 4] : List Word)[2]? = none ∧
    getOutput 3 { State.reset with out := [3, 4] } = .refused := by decide

/-- A state for each column of the table. -/
theorem witness_AcceptanceTable : (running []).engine = .running ∧
    (State.powerOn Config.standard).engine = .unloaded ∧
    ((running []).takeFault .overflow).engine = .faulted ∧ State.reset.engine ≠ .faulted ∧
    replied (transact 0 .faultIp ((running []).takeFault .overflow)) (·.engine) =
      some (.address 0, .faulted) := by decide

end Sys2Proof.Tests
end

section
/-! SUPPORT and CERTIFICATE. The encoding (`spec/30_encoding.md`): what an instruction word's decoding says
about its digits, the round trip of R60, R66, R75, and the legal-word table of R66. -/

namespace Sys2Proof

open Machine

/-! ## The tables of R62, R63 -/

@[simp] theorem Kind.ofOpcode_eq_some {n : Nat} {k : Kind} : Kind.ofOpcode n = some k ↔ k.opcode = n := by
  constructor
  · intro h
    simpa using List.find?_some h
  · rintro rfl
    cases k <;> rfl

theorem Kind.opcode_lt (k : Kind) : k.opcode < 100 := by cases k <;> decide

theorem Mode.ofDigit_digit (m : Mode) : Mode.ofDigit m.digit = some m := by cases m <;> rfl

@[simp] theorem Mode.ofDigit_eq_some {d : Nat} {m : Mode} : Mode.ofDigit d = some m ↔ m.digit = d := by
  constructor
  · match d with
    | 0 | 1 | 2 => rintro ⟨⟩; rfl
    | _ + 3 => rintro ⟨⟩
  · rintro rfl
    exact m.ofDigit_digit

/-- The three modes in the order of their digits (R62). -/
def Mode.all : List Mode := [.position, .immediate, .relative]

theorem Mode.mem_all (m : Mode) : m ∈ Mode.all := by cases m <;> decide

theorem Mode.digit_le (m : Mode) : m.digit ≤ 2 := by cases m <;> decide

theorem Mode.eq_position_iff {m : Mode} : m = .position ↔ m.digit = 0 := by cases m <;> decide

/-- A parameter the kind has takes its digit's mode; one it does not have is in position mode (R61, R62). -/
theorem modeAt_eq_some {k : Kind} {n j : Nat} {m : Mode} :
    modeAt k n j = some m ↔ m.digit = if j < k.paramCount then digit n (2 + j) else 0 := by
  unfold modeAt
  split
  · exact Mode.ofDigit_eq_some
  · rw [Option.some_inj, eq_comm, Mode.eq_position_iff]

/-! ## The instruction word as a number -/

/-- The number `OP + 100*m0 + 1000*m1 + 10000*m2` of R66. -/
def Header.code (h : Header) : Nat :=
  h.kind.opcode + 100 * h.m0.digit + 1000 * h.m1.digit + 10000 * h.m2.digit

theorem Header.natCast_code (h : Header) :
    (h.code : Int) = h.kind.opcode + 100 * h.m0.digit + 1000 * h.m1.digit + 10000 * h.m2.digit := by
  simp [Header.code]

theorem encodeWord_eq (h : Header) : encodeWord h = BitVec.ofNat 64 h.code := rfl

/-- Only the last mode digit, at most 2, reaches the fifth place. -/
theorem Header.code_lt (h : Header) : h.code < 30000 := by
  have hk := h.kind.opcode_lt
  have h0 := h.m0.digit_le
  have h1 := h.m1.digit_le
  have h2 := h.m2.digit_le
  unfold Header.code
  omega

theorem toInt_eq_natCast_iff {w : Word} {n : Nat} : w.toInt = (n : Int) ↔ ¬w.toInt < 0 ∧ n = w.toNat := by
  have hw := w.isLt
  rw [BitVec.toInt_eq_toNat_cond]
  split <;> omega

theorem toInt_encodeWord (h : Header) : (encodeWord h).toInt = h.code := by
  have hc := h.code_lt
  have hn : (encodeWord h).toNat = h.code := by
    rw [encodeWord_eq, BitVec.toNat_ofNat]
    omega
  rw [BitVec.toInt_eq_toNat_of_lt (by omega), hn]

/-! ## Decoding an instruction word -/

/-- Every parameter the kind does not have is in position mode, whose digit is 0 (R62, R66). -/
def Header.Padded (h : Header) : Prop := ∀ j ∈ [0, 1, 2], j < h.kind.paramCount ∨ (h.mode j).digit = 0

theorem Header.wf_iff {h : Header} : h.wf = true ↔ h.Padded ∧ h.writesImmediate = false := by
  simp [Header.wf, Header.Padded, Mode.eq_position_iff]

/-- The tests that `decodeWord` makes on the digits of a non-negative word, but for the write mode (R75). -/
def Header.MatchesDigits (h : Header) (n : Nat) : Prop :=
  h.kind.opcode = n % 100 ∧ modeAt h.kind n 0 = some h.m0 ∧ modeAt h.kind n 1 = some h.m1 ∧
    modeAt h.kind n 2 = some h.m2 ∧ n / 10 ^ (2 + h.kind.paramCount) = 0

theorem decodeWord_eq_ok_iff_matchesDigits {w : Word} {h : Header} :
    decodeWord w = .ok h ↔ ¬w.toInt < 0 ∧ h.MatchesDigits w.toNat ∧ h.writesImmediate = false := by
  constructor
  · intro hd
    unfold decodeWord at hd
    split at hd
    · cases hd
    next hneg =>
    split at hd
    · cases hd
    next kind hk =>
    split at hd
    next m0 m1 m2 h0 h1 h2 =>
      split at hd
      · cases hd
      next hs =>
      split at hd
      · cases hd
      next hw =>
      cases hd
      exact ⟨hneg, ⟨Kind.ofOpcode_eq_some.1 hk, h0, h1, h2, not_not.1 hs⟩, eq_false_of_ne_true hw⟩
    · cases hd
  · rintro ⟨hneg, ⟨hop, h0, h1, h2, hs⟩, hw⟩
    unfold decodeWord
    rw [if_neg hneg, Kind.ofOpcode_eq_some.2 hop]
    simp [h0, h1, h2, hs, hw]

/-- The code of a padded header is the number with its digits: for each number of parameters, a fact of linear
arithmetic on the digits. -/
theorem Header.matchesDigits_iff {h : Header} {n : Nat} :
    h.MatchesDigits n ↔ h.Padded ∧ h.code = n := by
  obtain ⟨k, m0, m1, m2⟩ := h
  have hk := k.opcode_lt
  have hp := Kind.paramCount_le k
  have h0 := m0.digit_le
  have h1 := m1.digit_le
  have h2 := m2.digit_le
  simp only [Header.MatchesDigits, Header.Padded, Header.code, Header.mode, modeAt_eq_some, digit,
    List.forall_mem_cons]
  generalize k.paramCount = p at *
  interval_cases p <;> simp <;> omega

/-- R66: the decoder accepts exactly the words of the rule's form, and reads the header the form names. -/
theorem decodeWord_eq_ok_iff {w : Word} {h : Header} :
    decodeWord w = .ok h ↔ h.wf = true ∧ w.toInt = (h.code : Int) := by
  rw [decodeWord_eq_ok_iff_matchesDigits, Header.matchesDigits_iff, Header.wf_iff, toInt_eq_natCast_iff]
  tauto

theorem decodeWord_encodeWord {h : Header} (hwf : h.wf = true) : decodeWord (encodeWord h) = .ok h :=
  decodeWord_eq_ok_iff.2 ⟨hwf, toInt_encodeWord h⟩

/-! ## The round trip of instructions -/

/-- Only the write parameter of an instruction can stop it from having an encoding. -/
theorem Instr.wf_header (i : Instr) : i.header.wf = i.wf := by
  cases i <;> simp [Header.wf, Header.writesImmediate, Header.mode, Instr.header, Instr.wf,
    Instr.writeParam, Kind.paramCount, Kind.roles]

theorem Instr.length_operands (i : Instr) : i.operands.length = i.header.kind.paramCount := by
  cases i <;> rfl

/-- Operand words after the instruction's own are not read (R73). -/
theorem Instr.instr_header_operands (i : Instr) (rest : List Word) :
    i.header.instr ((i.operands ++ rest).getD 0 0) ((i.operands ++ rest).getD 1 0)
      ((i.operands ++ rest).getD 2 0) = i := by
  cases i <;> rfl

/-- Settles O1: the instruction word gives back its header, and the operand words fill it. -/
theorem decodeOfEncodeIsTheInstruction : Obligations.DecodeOfEncodeIsTheInstruction := by
  intro i rest hwf
  have hd := decodeWord_encodeWord (i.wf_header.trans hwf)
  have hl : ¬(i.operands ++ rest).length < i.header.kind.paramCount := by
    simp [Instr.length_operands]
  rw [encode, List.cons_append, decode, hd]
  simp only [if_neg hl, i.instr_header_operands rest, List.drop_left' i.length_operands]

/-! ## The legal-word table of R66 -/

/-- The headers of a kind that have a word, the mode of the first parameter changing fastest. -/
def Kind.legalHeaders (k : Kind) : List Header :=
  (Mode.all.flatMap fun m2 => Mode.all.flatMap fun m1 => Mode.all.map fun m0 => ⟨k, m0, m1, m2⟩).filter
    Header.wf

theorem Kind.mem_legalHeaders {k : Kind} {h : Header} : h ∈ k.legalHeaders ↔ h.kind = k ∧ h.wf = true := by
  obtain ⟨k', m0, m1, m2⟩ := h
  simp [Kind.legalHeaders, Mode.mem_all, @eq_comm _ k]

/-- The row of a kind lists the words of its legal headers, in this order. -/
theorem legalWords_eq (k : Kind) : legalWords k = k.legalHeaders.map Header.code := by
  cases k <;> decide

theorem exists_decodeWord_kind_iff {w : Word} {k : Kind} :
    (∃ h, decodeWord w = .ok h ∧ h.kind = k) ↔ ∃ n ∈ legalWords k, w.toInt = (n : Int) := by
  simp only [legalWords_eq, decodeWord_eq_ok_iff, List.mem_map, Kind.mem_legalHeaders]
  constructor
  · rintro ⟨h, ⟨hwf, hw⟩, hk⟩
    exact ⟨h.code, ⟨h, ⟨hk, hwf⟩, rfl⟩, hw⟩
  · rintro ⟨_, ⟨h, ⟨hk, hwf⟩, rfl⟩, hw⟩
    exact ⟨h, ⟨hwf, hw⟩, hk⟩

theorem faultOfWord_mem (e : WordError) :
    faultOfWord e ∈ [Fault.invalidOpcode, .invalidMode, .invalidWriteMode] := by
  cases e <;> decide

/-- A word that does not decode raises its fault when it is fetched, before anything else (R83, R92). -/
theorem step_of_decodeWord_error {s : State} {w : Word} {e : WordError} (hr : s.engine = .running)
    (hw : s.readCell s.ip = .ok w) (he : decodeWord w = .error e) :
    step s = .next (s.takeFault (faultOfWord e)) := by
  have hh : s.fetchHeader = .error (faultOfWord e) :=
    State.fetchHeader_eq_error.2 (.inr ⟨w, e, hw, he, rfl⟩)
  simp only [step, State.nextAction_of_running hr, State.fetch, hh]

/-- Settles O2: the row of each kind is the list of the codes of its legal headers, which are the words that
decode to it. -/
theorem legalWordsAreTheTable : Obligations.LegalWordsAreTheTable := by
  refine ⟨fun w h => ?_, fun w k => exists_decodeWord_kind_iff, by decide, fun s w hr hw hnot => ?_⟩
  · rw [decodeWord_eq_ok_iff, Header.natCast_code]
  · cases he : decodeWord w with
    | error e => exact ⟨_, faultOfWord_mem e, step_of_decodeWord_error hr hw he⟩
    | ok h => exact absurd he (hnot h)

end Sys2Proof
end

section
/-! SUPPORT and CERTIFICATE. The engine (`spec/40_engine.md`): the addressing modes of R86 and R87, and the four
outcomes of a step of R81. -/

namespace Sys2Proof

open Machine

/-! ## Parameters, mode by mode -/

@[simp] theorem Machine.State.readParam_immediate (s : State) (v : Word) :
    s.readParam ⟨.immediate, v⟩ = .ok v := rfl

@[simp] theorem Machine.State.readParam_position (s : State) (v : Word) :
    s.readParam ⟨.position, v⟩ = s.readCell v.toInt := rfl

@[simp] theorem Machine.State.readParam_relative (s : State) (v : Word) :
    s.readParam ⟨.relative, v⟩ = s.readCell (s.rb.toInt + v.toInt) := rfl

@[simp] theorem Machine.State.writeAddr_immediate (s : State) (v : Word) :
    s.writeAddr ⟨.immediate, v⟩ = .error .invalidWriteMode := rfl

@[simp] theorem Machine.State.writeAddr_position (s : State) (v : Word) :
    s.writeAddr ⟨.position, v⟩ = s.check v.toInt := rfl

@[simp] theorem Machine.State.writeAddr_relative (s : State) (v : Word) :
    s.writeAddr ⟨.relative, v⟩ = s.check (s.rb.toInt + v.toInt) := rfl

/-- Settles O14: immediate mode gives the word itself; the other two read one cell, with the faults of `chk`. -/
theorem readParameterModes : Obligations.ReadParameterModes := fun s v =>
  ⟨s.readParam_immediate v,
    fun h0 h1 => State.readCell_eq_ok.2 ⟨h0, h1, rfl⟩,
    fun h0 h1 => State.readCell_eq_ok.2 ⟨h0, h1, rfl⟩,
    fun _ hf => State.readCell_eq_error.2 hf,
    fun _ hf => State.readCell_eq_error.2 hf⟩

/-- Settles O15, mode by mode. -/
theorem writeParameterModes : Obligations.WriteParameterModes := fun s v =>
  ⟨s.writeAddr_immediate v, s.writeAddr_position v, s.writeAddr_relative v⟩

/-! ## The outcomes of an instruction -/

/-- Only HALT and a non-strict INPUT with the queue empty end a run without a fault. -/
theorem Machine.exec_cases {i : Instr} {s t : State} (h : exec i s = .next t) :
    Faults s t ∨ t.engine = s.engine ∨ (i = .halt ∧ t = s.halt) ∨
      ((∃ dst, i = .input dst) ∧ s.inq = [] ∧ s.strict = false ∧ t = s.suspend) := by
  cases i with
  | add a b dst | mul a b dst | lessThan a b dst | equals a b dst =>
    rcases State.settle_storeBinary_cases h with ⟨e, _, ht⟩ | ⟨_, _, _, _, _, _, _, _, rfl⟩
    exacts [.inl ⟨e, ht⟩, .inr (.inl rfl)]
  | input dst =>
    rcases execInput_cases h with hf | hs | ⟨_, _, _, _, _, rfl⟩
    exacts [.inl hf, .inr (.inr (.inr ⟨⟨dst, rfl⟩, hs⟩)), .inr (.inl rfl)]
  | output a =>
    rcases execOutput_cases h with hf | ⟨_, _, _, rfl⟩
    exacts [.inl hf, .inr (.inl rfl)]
  | jmpTrue c target =>
    rcases execJmpTrue_cases h with hf | ⟨_, _, _, _, ⟨_, rfl⟩ | ⟨_, rfl⟩⟩
    exacts [.inl hf, .inr (.inl rfl), .inr (.inl rfl)]
  | jmpFalse c target =>
    rcases execJmpFalse_cases h with hf | ⟨_, _, _, _, ⟨_, rfl⟩ | ⟨_, rfl⟩⟩
    exacts [.inl hf, .inr (.inl rfl), .inr (.inl rfl)]
  | baseOffset a =>
    rcases execBaseOffset_cases h with hf | ⟨_, rfl⟩
    exacts [.inl hf, .inr (.inl rfl)]
  | halt =>
    rw [execHalt_eq] at h
    cases h
    exact .inr (.inr (.inl ⟨rfl, rfl⟩))

/-! ## The outcomes of a step -/

/-- The instruction a header makes is of the header's kind. -/
@[simp] theorem Header.kind_header_instr (h : Header) (o0 o1 o2 : Word) :
    (h.instr o0 o1 o2).header.kind = h.kind := by
  obtain ⟨k, m0, m1, m2⟩ := h
  cases k <;> rfl

theorem Machine.State.kind_of_fetchOperands {s : State} {h : Header} {i : Instr}
    (ho : s.fetchOperands h = .ok i) : i.header.kind = h.kind := by
  obtain ⟨o0, o1, o2, _, _, _, rfl⟩ := State.fetchOperands_eq_ok.1 ho
  exact h.kind_header_instr o0 o1 o2

/-- R84: the empty queue of an INPUT is met before the instruction executes. -/
theorem Machine.State.inq_ne_nil_of_fetch_input {s : State} {dst : Param}
    (h : s.fetch = .execute (.input dst)) : s.inq ≠ [] := by
  intro hq
  rcases s.fetch_cases with ⟨f, hf⟩ | ⟨_, _, _, _, hf⟩ | ⟨hd, i, _, hne, ho, hf⟩
  · cases hf.symm.trans h
  · cases hf.symm.trans h
  · cases hf.symm.trans h
    exact hne ⟨(State.kind_of_fetchOperands ho).symm, hq⟩

/-- Settles O8: the stages before execution end in a fault or in the suspension; an executed instruction goes on,
halts or faults, and an executed INPUT has a value to take. -/
theorem stepHasOneOfFourOutcomes : Obligations.StepHasOneOfFourOutcomes := by
  intro s hr
  obtain ⟨t, ht⟩ := step_isNext s
  refine ⟨t, ht, ?_⟩
  rcases step_cases hr ht with hf | ⟨hq, hs, rfl, hF⟩ | ⟨_, i, _, _, ha, he⟩
  · exact .inr (.inr (.inr hf))
  · exact .inr (.inr (.inl ⟨rfl, hq, hs, hF⟩))
  · rcases exec_cases he with hf | hrun | ⟨rfl, rfl⟩ | ⟨⟨dst, rfl⟩, hq, _⟩
    · exact .inr (.inr (.inr hf))
    · exact .inl ⟨hrun.trans hr, i, ha⟩
    · exact .inr (.inl ⟨rfl, ha⟩)
    · rw [State.nextAction_of_running hr] at ha
      exact absurd hq (State.inq_ne_nil_of_fetch_input ha)

end Sys2Proof
end

section
/-! SUPPORT and CERTIFICATE. The comparisons (`spec/42_compare.md`): what LESS_THAN and EQUALS write, R132. -/

namespace Sys2Proof

open Machine

theorem boolWord_eq_zero_or_one (c : Bool) : boolWord c = 0 ∨ boolWord c = 1 := by
  cases c
  exacts [.inl rfl, .inr rfl]

/-- An operand that fails is one of the three parameters, with its own fault. -/
theorem Machine.StoringOperandFails.exists_param {s : State} {a b dst : Param} {f : Fault}
    (h : StoringOperandFails s a b dst f) :
    s.readParam a = .error f ∨ s.readParam b = .error f ∨ s.writeAddr dst = .error f := by
  rcases h with ha | ⟨_, _, hb⟩ | ⟨_, _, _, _, hd⟩
  exacts [.inl ha, .inr (.inl hb), .inr (.inr hd)]

/-- A binary instruction whose result is a truth value raises no fault of its own: it takes an operand's fault,
or stores the truth value. -/
theorem Machine.State.settle_storeBinary_boolWord_cases {s t : State} {c : Int → Int → Bool} {a b dst : Param}
    (h : s.settle (s.storeBinary (fun x y => .ok (boolWord (c x y))) a b dst) = .next t) :
    (∃ f, StoringOperandFails s a b dst f ∧ t = s.takeFault f) ∨
      ∃ d r, s.writeAddr dst = .ok d ∧ t = (s.store d (boolWord r)).advance 4 := by
  rcases State.settle_storeBinary_cases h with ⟨f, hf | ⟨_, _, _, _, hr⟩, ht⟩ | ⟨x, y, d, _, _, _, hd, hr, ht⟩
  · exact .inl ⟨f, hf, ht⟩
  · cases hr
  · cases hr
    exact .inr ⟨d, c x.toInt y.toInt, hd, ht⟩

/-- Both comparisons store a truth value, and fault only for an operand. -/
theorem Machine.exec_comparison_cases {s t : State} {a b dst : Param}
    (h : exec (.lessThan a b dst) s = .next t ∨ exec (.equals a b dst) s = .next t) :
    (∃ f, StoringOperandFails s a b dst f ∧ t = s.takeFault f) ∨
      ∃ d r, s.writeAddr dst = .ok d ∧ t = (s.store d (boolWord r)).advance 4 := by
  rcases h with h | h
  · exact State.settle_storeBinary_boolWord_cases (c := fun x y => decide (x < y)) h
  · exact State.settle_storeBinary_boolWord_cases (c := fun x y => decide (x = y)) h

/-- Settles O29: the value stored is a truth value, and a fault is that of the operand that fails. -/
theorem comparisonsWriteZeroOrOne : Obligations.ComparisonsWriteZeroOrOne := by
  intro s t a b dst h
  rcases exec_comparison_cases h with ⟨f, hf, ht⟩ | ⟨d, r, hd, ht⟩
  · exact .inl ⟨f, hf.exists_param, ht⟩
  · exact .inr ⟨d, boolWord r, hd, boolWord_eq_zero_or_one r, ht⟩

end Sys2Proof
end

section
/-! SUPPORT and CERTIFICATE. Exceptions (`spec/60_exceptions.md`): `InvalidWriteMode` at decode (R173), the
empty queue at stage 3 (R174), and fault entry (R181). -/

namespace Sys2Proof

open Machine

/-! ## `InvalidWriteMode`: the last test of the decoder -/

theorem Mode.eq_immediate_iff {m : Mode} : m = .immediate ↔ m.digit = 1 := by cases m <;> decide

theorem Mode.exists_digit_eq {d : Nat} (hd : d ≤ 2) : ∃ m : Mode, m.digit = d := by
  interval_cases d
  exacts [⟨.position, rfl⟩, ⟨.immediate, rfl⟩, ⟨.relative, rfl⟩]

theorem exists_modeAt_eq_some {k : Kind} {n j : Nat} (h : j < k.paramCount → digit n (2 + j) ≤ 2) :
    ∃ m, modeAt k n j = some m := by
  simp only [modeAt_eq_some]
  apply Mode.exists_digit_eq
  split
  next hj => exact h hj
  · exact Nat.zero_le 2

/-- A number whose opcode, mode digits and surplus digits pass the tests of R75 names a header. -/
theorem exists_matchesDigits {k : Kind} {n : Nat} (hop : k.opcode = n % 100)
    (hd : ∀ j < k.paramCount, digit n (2 + j) ≤ 2) (hs : n < 10 ^ (2 + k.paramCount)) :
    ∃ h : Header, h.kind = k ∧ h.MatchesDigits n := by
  obtain ⟨m0, h0⟩ := exists_modeAt_eq_some (hd 0)
  obtain ⟨m1, h1⟩ := exists_modeAt_eq_some (hd 1)
  obtain ⟨m2, h2⟩ := exists_modeAt_eq_some (hd 2)
  exact ⟨⟨k, m0, m1, m2⟩, rfl, hop, h0, h1, h2, Nat.div_eq_of_lt hs⟩

/-- A parameter that the header's kind has is in the mode of its digit (R61). -/
theorem Header.MatchesDigits.digit_mode {h : Header} {n j : Nat} (hm : h.MatchesDigits n)
    (hj : j < h.kind.paramCount) : (h.mode j).digit = digit n (2 + j) := by
  obtain ⟨_, h0, h1, h2, _⟩ := hm
  have hmode : modeAt h.kind n j = some (h.mode j) := by
    have hj3 : j < 3 := hj.trans_le (Kind.paramCount_le h.kind)
    interval_cases j
    exacts [h0, h1, h2]
  rw [modeAt_eq_some.1 hmode, if_pos hj]

theorem Kind.lt_paramCount_of_roles {k : Kind} {j : Nat} {r : Role} (h : k.roles[j]? = some r) :
    j < k.paramCount := (List.getElem?_eq_some_iff.1 h).1

theorem Header.writesImmediate_of_mode {h : Header} {j : Nat} (hr : h.kind.roles[j]? = some .write)
    (hm : h.mode j = .immediate) : h.writesImmediate = true := by
  have hj3 : j < 3 := (Kind.lt_paramCount_of_roles hr).trans_le (Kind.paramCount_le h.kind)
  refine List.any_eq_true.2 ⟨j, ?_, by simp [hr, hm]⟩
  interval_cases j <;> decide

/-- Once opcode and digits have passed, an immediate write parameter is the one reason left to reject (R75). -/
theorem decodeWord_of_writesImmediate {w : Word} {h : Header} (hneg : ¬w.toInt < 0)
    (hm : h.MatchesDigits w.toNat) (hw : h.writesImmediate = true) :
    decodeWord w = .error .invalidWriteMode := by
  obtain ⟨hop, h0, h1, h2, hs⟩ := hm
  unfold decodeWord
  rw [if_neg hneg, Kind.ofOpcode_eq_some.2 hop]
  simp [h0, h1, h2, hs, hw]

/-- Settles O4: the digits name a header whose write parameter is immediate, and stage 2 raises its fault. -/
theorem immediateWriteParametersFault : Obligations.ImmediateWriteParametersFault := by
  rintro s w kind hr hw h0 hop hd hs ⟨j, hj, h1⟩
  have hneg : ¬w.toInt < 0 := not_lt.2 h0
  have hnat : w.toInt = w.toNat := BitVec.toInt_eq_toNat_of_msb (by simpa [BitVec.msb_eq_toInt] using h0)
  obtain ⟨h, rfl, hm⟩ := exists_matchesDigits (by omega) hd hs
  have himm : h.mode j = .immediate :=
    Mode.eq_immediate_iff.2 ((hm.digit_mode (Kind.lt_paramCount_of_roles hj)).trans h1)
  exact step_of_decodeWord_error hr hw
    (decodeWord_of_writesImmediate hneg hm (Header.writesImmediate_of_mode hj himm))

/-! ## The empty queue -/

/-- Stage 3 ends the step of an INPUT with the queue empty, before stage 4 (R84). -/
theorem step_of_empty_queue {s : State} {h : Header} (hr : s.engine = .running) (hf : Fetches s h)
    (hk : h.kind = .input) (hq : s.inq = []) : step s = .next s.starve := by
  have hh := State.fetchHeader_eq_ok.2 hf
  simp only [step, State.nextAction_of_running hr, State.fetch, hh, if_pos (And.intro hk hq)]

/-- Settles O11: the step starves, which the RUN's strictness makes a fault or the suspension. -/
theorem emptyQueueEndsTheStep : Obligations.EmptyQueueEndsTheStep := by
  intro s h hr hf hk hq
  rw [step_of_empty_queue hr hf hk hq]
  rcases s.starve_cases with ⟨hs, ht⟩ | ⟨hs, ht⟩
  · exact ⟨fun _ => congrArg _ ht, fun hs' => absurd (hs.symm.trans hs') (by decide)⟩
  · exact ⟨fun hs' => absurd (hs.symm.trans hs') (by decide), fun _ => congrArg _ ht⟩

/-! ## Fault entry -/

/-- The loop of RUN stops at once, whatever its fuel, in a state that is not RUNNING (R96). -/
theorem runLoop_of_not_running {s : State} (h : s.engine ≠ .running) (fuel : Nat) :
    runLoop fuel s = some s := by
  cases fuel <;> exact if_neg h

@[simp] theorem Machine.State.takeFault_faultCode (s : State) (f : Fault) :
    (s.takeFault f).faultCode = f.code := rfl

@[simp] theorem Machine.State.takeFault_runResult (s : State) (f : Fault) :
    (s.takeFault f).runResult = .faulted f.code := rfl

/-- Settles O33: the record is what fault entry writes, and a FAULTED engine ends the loop. -/
theorem faultEntry : Obligations.FaultEntry := by
  intro s f
  have hstop : (s.takeFault f).engine ≠ .running := by simp
  exact ⟨s.takeFault_engine f, s.takeFault_fault f, s.takeFault_faultCode f, s.takeFault_faultIp f,
    runLoop_of_not_running hstop, s.takeFault_runResult f⟩

end Sys2Proof
end

section
/-! SUPPORT. What an instruction comes to, said once for all ten: the fault it raises, or how it completes (R80,
R90). The frames, the rules of the whole machine and the invariant are read off from this. -/

namespace Sys2Proof

open Machine

/-- The four instructions of the form `dst = f(a, b)`. -/
def Instr.StoresResult (i : Instr) (a b dst : Param) : Prop :=
  i = .add a b dst ∨ i = .mul a b dst ∨ i = .lessThan a b dst ∨ i = .equals a b dst

theorem Instr.StoresResult.length_eq {i : Instr} {a b dst : Param} (h : i.StoresResult a b dst) :
    i.header.kind.length = 4 := by
  rcases h with rfl | rfl | rfl | rfl <;> rfl

/-- The state that an instruction commits, or the fault it raises: its meaning before the fault is taken. -/
def Machine.State.result (s : State) : Instr → Except Fault State
  | .add a b dst => s.storeBinary (fun x y => narrow (x + y)) a b dst
  | .mul a b dst => s.storeBinary (fun x y => narrow (x * y)) a b dst
  | .lessThan a b dst => s.storeBinary (fun x y => .ok (boolWord (decide (x < y)))) a b dst
  | .equals a b dst => s.storeBinary (fun x y => .ok (boolWord (decide (x = y)))) a b dst
  | .input dst =>
    match s.inq with
    | [] => if s.strict then .error .inputUnderflow else .ok s.suspend
    | v :: rest => s.inputTo v rest dst
  | .output a => s.outputParam a
  | .jmpTrue c target => s.jumpWhen holds c target
  | .jmpFalse c target => s.jumpWhen (fun x => !holds x) c target
  | .baseOffset a => s.offsetBase a
  | .halt => .ok s.halt

section

variable {s : State} {a b dst : Param}

theorem Machine.State.result_add :
    s.result (.add a b dst) = s.storeBinary (fun x y => narrow (x + y)) a b dst := rfl

theorem Machine.State.result_mul :
    s.result (.mul a b dst) = s.storeBinary (fun x y => narrow (x * y)) a b dst := rfl

theorem Machine.State.result_lessThan :
    s.result (.lessThan a b dst) = s.storeBinary (fun x y => .ok (boolWord (decide (x < y)))) a b dst := rfl

theorem Machine.State.result_equals :
    s.result (.equals a b dst) = s.storeBinary (fun x y => .ok (boolWord (decide (x = y)))) a b dst := rfl

end

theorem Machine.State.result_input_nil {s : State} {dst : Param} (h : s.inq = []) :
    s.result (.input dst) = if s.strict then .error .inputUnderflow else .ok s.suspend := by
  simp only [State.result, h]

theorem Machine.State.result_input_cons {s : State} {dst : Param} {v : Word} {rest : List Word}
    (h : s.inq = v :: rest) : s.result (.input dst) = s.inputTo v rest dst := by
  simp only [State.result, h]

/-- Every instruction's meaning is its result, settled. -/
theorem Machine.exec_eq_settle (i : Instr) (s : State) : exec i s = s.settle (s.result i) := by
  cases i with
  | input dst =>
    match hq : s.inq with
    | [] =>
      rw [execInput_nil hq, State.result_input_nil hq]
      rcases s.starve_cases with ⟨hs, ht⟩ | ⟨hs, ht⟩ <;> simp [hs, ht, State.settle]
    | v :: rest => rw [execInput_cons hq, State.result_input_cons hq]
  | _ => rfl

theorem Machine.exec_eq_next {i : Instr} {s t : State} :
    exec i s = .next t ↔ s.result i = .ok t ∨ ∃ f, s.result i = .error f ∧ t = s.takeFault f := by
  rw [exec_eq_settle, State.settle_eq_next]

/-! ## The truth of a jump's condition (R140) -/

theorem Machine.jumpTaken_jmpTrue {s : State} {c target : Param} {x : Word} (hx : s.readParam c = .ok x) :
    JumpTaken s (.jmpTrue c target) ↔ x ≠ 0 := by
  constructor
  · rintro ⟨_, _, y, hy, ⟨⟨⟩, h0⟩ | ⟨⟨⟩, _⟩⟩
    cases hx.symm.trans hy
    exact h0
  · exact fun h0 => ⟨c, target, x, hx, .inl ⟨rfl, h0⟩⟩

theorem Machine.jumpTaken_jmpFalse {s : State} {c target : Param} {x : Word} (hx : s.readParam c = .ok x) :
    JumpTaken s (.jmpFalse c target) ↔ x = 0 := by
  constructor
  · rintro ⟨_, _, y, hy, ⟨⟨⟩, _⟩ | ⟨⟨⟩, h0⟩⟩
    cases hx.symm.trans hy
    exact h0
  · exact fun h0 => ⟨c, target, x, hx, .inr ⟨rfl, h0⟩⟩

theorem Machine.JumpTaken.is_jump {s : State} {i : Instr} (h : JumpTaken s i) :
    ∃ c target, i = .jmpTrue c target ∨ i = .jmpFalse c target := by
  obtain ⟨c, target, _, _, ⟨rfl, _⟩ | ⟨rfl, _⟩⟩ := h
  exacts [⟨c, target, .inl rfl⟩, ⟨c, target, .inr rfl⟩]

/-! ## The ways to complete -/

/-- `s.Completes i t`: executed in `s`, the instruction `i` raises no fault and commits `t` (R90, R91). -/
inductive Machine.State.Completes (s : State) : Instr → State → Prop
  /-- ADD, MUL, LESS_THAN and EQUALS store their result. -/
  | store {i : Instr} {a b dst : Param} {d : Nat} (r : Word) (hi : i.StoresResult a b dst)
      (hd : s.writeAddr dst = .ok d) : s.Completes i ((s.store d r).advance 4)
  /-- INPUT takes the oldest value of the queue. -/
  | take {dst : Param} {d : Nat} {v : Word} {rest : List Word} (hq : s.inq = v :: rest)
      (hd : s.writeAddr dst = .ok d) : s.Completes (.input dst) (((s.store d v).setInq rest).advance 2)
  /-- INPUT finds the queue empty in a RUN that is not strict. -/
  | suspend {dst : Param} (hq : s.inq = []) (hs : s.strict = false) : s.Completes (.input dst) s.suspend
  /-- OUTPUT finds room in `OUT`. -/
  | emit {a : Param} (x : Word) (hroom : s.outFull = false) : s.Completes (.output a) ((s.emit x).advance 2)
  /-- A jump is taken. -/
  | jump {i : Instr} {c target : Param} {v : Word} (hi : i = .jmpTrue c target ∨ i = .jmpFalse c target)
      (hj : JumpTaken s i) (hv : s.readParam target = .ok v) : s.Completes i (s.jump v)
  /-- A jump is not taken. -/
  | fall {i : Instr} {c target : Param} (hi : i = .jmpTrue c target ∨ i = .jmpFalse c target)
      (hj : ¬JumpTaken s i) : s.Completes i (s.advance 3)
  /-- BASE_OFFSET sets `rb`. -/
  | setRb {a : Param} (r : Word) : s.Completes (.baseOffset a) ((s.setRb r).advance 2)
  /-- HALT ends the run. -/
  | halt : s.Completes .halt s.halt

theorem Machine.State.completes_of_jumpWhen {s t : State} {i : Instr} {taken : Word → Bool} {c target : Param}
    (hi : i = .jmpTrue c target ∨ i = .jmpFalse c target)
    (hj : ∀ x, s.readParam c = .ok x → (JumpTaken s i ↔ taken x = true))
    (h : s.jumpWhen taken c target = .ok t) : s.Completes i t := by
  obtain ⟨x, v, hx, hv, rfl⟩ := State.jumpWhen_eq_ok.1 h
  split
  next ht => exact .jump hi ((hj x hx).2 ht) hv
  next ht => exact .fall hi (mt (hj x hx).1 ht)

theorem Machine.State.completes_of_result {i : Instr} {s t : State} (h : s.result i = .ok t) :
    s.Completes i t := by
  cases i with
  | add a b dst | mul a b dst | lessThan a b dst | equals a b dst =>
    rw [State.result, State.storeBinary_eq_ok] at h
    obtain ⟨_, _, d, r, _, _, hd, _, rfl⟩ := h
    exact .store (a := a) (b := b) r (by simp [Instr.StoresResult]) hd
  | input dst =>
    match hq : s.inq with
    | [] =>
      rw [State.result_input_nil hq] at h
      cases hs : s.strict <;> simp only [hs] at h <;> cases h
      exact .suspend hq hs
    | v :: rest =>
      obtain ⟨d, hd, rfl⟩ := State.inputTo_eq_ok.1 ((State.result_input_cons hq).symm.trans h)
      exact .take hq hd
  | output a =>
    obtain ⟨x, _, hroom, rfl⟩ := State.outputParam_eq_ok.1 h
    exact .emit x hroom
  | jmpTrue c target =>
    exact completes_of_jumpWhen (.inl rfl) (fun x hx => (jumpTaken_jmpTrue hx).trans holds_iff.symm) h
  | jmpFalse c target =>
    exact completes_of_jumpWhen (.inr rfl)
      (fun x hx => (jumpTaken_jmpFalse hx).trans (by simp [holds])) h
  | baseOffset a =>
    obtain ⟨_, r, _, _, rfl⟩ := State.offsetBase_eq_ok.1 h
    exact .setRb r
  | halt =>
    cases h
    exact .halt

/-- Everything an instruction can do: take a fault, or complete. -/
theorem Machine.exec_faults_or_completes {i : Instr} {s t : State} (h : exec i s = .next t) :
    Faults s t ∨ s.Completes i t := by
  rcases exec_eq_next.1 h with h | ⟨f, _, rfl⟩
  exacts [.inr (State.completes_of_result h), .inl ⟨f, rfl⟩]

/-- Everything one step of a RUN can do: a fault, the suspension before the operands are fetched, or the
completion of the fetched instruction. -/
theorem Machine.step_faults_or_completes {s t : State} (hr : s.engine = .running) (h : step s = .next t) :
    Faults s t ∨ (s.inq = [] ∧ s.strict = false ∧ t = s.suspend) ∨
      ∃ hd i, Fetches s hd ∧ s.fetchOperands hd = .ok i ∧ s.nextAction = .execute i ∧ s.Completes i t := by
  rcases step_cases hr h with hf | ⟨hq, hs, ht, _⟩ | ⟨hd, i, hF, ho, ha, he⟩
  · exact .inl hf
  · exact .inr (.inl ⟨hq, hs, ht⟩)
  · exact (exec_faults_or_completes he).imp id fun hc => .inr ⟨hd, i, hF, ho, ha, hc⟩

end Sys2Proof
end

section
/-! SUPPORT and CERTIFICATE. The invariant of the machine (`spec/10_state.md`): at reset, at power-on, and kept by
every step. -/

namespace Sys2Proof

open Machine

/-! ## The limits of the state elements -/

theorem withinCapacity_iff {c : Option Nat} {n : Nat} :
    withinCapacity c n = true ↔ ∀ k, c = some k → n ≤ k := by
  cases c <;> simp [withinCapacity]

theorem withinCapacity_of_le {c : Option Nat} {m n : Nat} (h : withinCapacity c n = true) (hmn : m ≤ n) :
    withinCapacity c m = true :=
  withinCapacity_iff.2 fun k hk => hmn.trans (withinCapacity_iff.1 h k hk)

theorem Machine.State.outFull_eq_false {s : State} :
    s.outFull = false ↔ withinCapacity s.cfg.outqCapacity (s.out.length + 1) = true := by
  simp [State.outFull]

theorem Config.memCells_le {c : Config} (h : c.wf = true) : c.memCells ≤ 9223372036854775808 := by
  simp only [Config.wf, Bool.and_eq_true, decide_eq_true_eq] at h
  exact h.1.1.2

theorem boundIp_range (v : Int) : -9223372036854775808 ≤ boundIp v ∧ boundIp v ≤ 9223372036854775808 := by
  unfold boundIp
  omega

theorem word_toInt_range (w : Word) :
    -9223372036854775808 ≤ w.toInt ∧ w.toInt ≤ 9223372036854775808 := by
  have h0 : -2 ^ 63 ≤ w.toInt := w.le_toInt
  have h1 : w.toInt < 2 ^ 63 := w.toInt_lt
  omega

theorem bitVec65_toInt_range (a : BitVec 65) :
    -18446744073709551616 ≤ a.toInt ∧ a.toInt < 18446744073709551616 := by
  have h0 : -2 ^ 64 ≤ a.toInt := a.le_toInt
  have h1 : a.toInt < 2 ^ 64 := a.toInt_lt
  omega

/-! ## The operations on the state -/

section

variable {s : State} (h : s.Inv)
include h

theorem Machine.State.Inv.fault_eq_none (he : s.engine ≠ .faulted) : s.fault = none := by
  have hf := mt h.fault_iff.1 he
  simpa using hf

/-- An instruction inside the cells leaves `ip` at most at `MEM_CELLS` (R21, R91). -/
theorem Machine.State.Inv.advance {n : Int} (h0 : 0 ≤ s.ip + n) (h1 : s.ip + n ≤ s.cfg.memCells) :
    (s.advance n).Inv :=
  have hc := Config.memCells_le h.cfg_wf
  { h with ip_range := by rw [State.advance_ip]; omega }

theorem Machine.State.Inv.jump (v : Word) : (s.jump v).Inv := { h with ip_range := word_toInt_range v }

theorem Machine.State.Inv.store {d : Nat} (hd : d < s.cfg.memCells) (v : Word) : (s.store d v).Inv :=
  { h with
    mem_wf := Memory.wf_write h.mem_wf d v
    mem_below := Memory.below_write hd h.mem_below }

theorem Machine.State.Inv.setRb (v : Word) : (s.setRb v).Inv := { h with }

theorem Machine.State.Inv.setInq {l : List Word} (hl : l.length ≤ s.inq.length) : (s.setInq l).Inv :=
  { h with inq_fits := withinCapacity_of_le h.inq_fits hl }

theorem Machine.State.Inv.emit (hroom : s.outFull = false) (v : Word) : (s.emit v).Inv :=
  { h with out_fits := by simpa using State.outFull_eq_false.1 hroom }

theorem Machine.State.Inv.halt (he : s.engine ≠ .faulted) : s.halt.Inv :=
  { h with fault_iff := by simp [h.fault_eq_none he] }

theorem Machine.State.Inv.suspend (he : s.engine ≠ .faulted) : s.suspend.Inv :=
  { h with fault_iff := by simp [h.fault_eq_none he] }

/-- The free values of a fault entry are within the limits of their elements (R93). -/
theorem Machine.State.Inv.takeFault (f : Fault) : (s.takeFault f).Inv where
  cfg_wf := h.cfg_wf
  mem_wf := Memory.wf_ofCells _ _
  mem_below := Memory.below_ofCells _ _
  ip_range := boundIp_range _
  faultIp_range := by
    have hip := h.ip_range
    rw [State.takeFault_faultIp]
    omega
  inq_fits := takeCapacity_fits _ _
  out_fits := takeCapacity_fits _ _
  fault_iff := by simp

/-- An instruction whose words all lie in cells keeps the invariant when it completes. -/
theorem Machine.State.Completes.inv {i : Instr} {t : State} (hc : s.Completes i t) (he : s.engine ≠ .faulted)
    (h0 : 0 ≤ s.ip) (hend : s.ip + i.header.kind.length ≤ s.cfg.memCells) : t.Inv := by
  cases hc with
  | store r hi hd =>
    rw [hi.length_eq] at hend
    exact (h.store (State.writeAddr_lt hd) r).advance (by simp; omega) hend
  | @take _ _ v rest hq hd =>
    have hpop := (h.store (State.writeAddr_lt hd) v).setInq (l := rest) (by simp [hq])
    exact hpop.advance (by simp; omega) hend
  | suspend => exact h.suspend he
  | emit x hroom => exact (h.emit hroom x).advance (by simp; omega) hend
  | jump => exact h.jump _
  | fall hi =>
    refine h.advance (by omega) ?_
    rcases hi with rfl | rfl <;> exact hend
  | setRb r => exact (h.setRb r).advance (by simp; omega) hend
  | halt => exact h.halt he

theorem Machine.step_keeps_inv {t : State} (ht : step s = .next t) : t.Inv := by
  by_cases hr : s.engine = .running
  · have he : s.engine ≠ .faulted := by simp [hr]
    rcases step_faults_or_completes hr ht with ⟨f, rfl⟩ | ⟨_, _, rfl⟩ | ⟨hd, i, hF, ho, _, hc⟩
    · exact h.takeFault f
    · exact h.suspend he
    · obtain ⟨h0, hend⟩ := State.fetchOperands_end hF ho
      exact hc.inv h he h0 (by rwa [State.kind_of_fetchOperands ho])
  · cases (step_of_not_running hr).symm.trans ht
    exact h

end

/-- Settles O40: each way to complete keeps every limit, `ip` because an instruction's words lie in cells; the
entry of a fault draws free values that are within the limits. -/
theorem stepKeepsTheInvariant : Obligations.StepKeepsTheInvariant := fun _ _ h => step_keeps_inv h

/-- Settles O39, field by field. -/
theorem resetIsSound : Obligations.ResetIsSound := by
  refine ⟨?_, ?_, ?_, ?_, ?_, ?_, ?_, ?_⟩ <;> decide

theorem Machine.State.powerOn_inv {cfg : Config} (h : cfg.wf = true) : (State.powerOn cfg).Inv where
  cfg_wf := h
  mem_wf := Memory.wf_ofCells _ _
  mem_below := Memory.below_ofCells _ _
  ip_range := boundIp_range _
  faultIp_range := bitVec65_toInt_range _
  inq_fits := withinCapacity_iff.2 fun _ _ => Nat.zero_le _
  out_fits := withinCapacity_iff.2 fun _ _ => Nat.zero_le _
  fault_iff := by simp [State.powerOn]

/-- Settles O36: the specified elements by their definition, the unspecified ones by the limits of the free
values. -/
theorem powerOnIsUnloaded : Obligations.PowerOnIsUnloaded := fun _ =>
  ⟨rfl, rfl, rfl, rfl, rfl, State.powerOn_inv⟩

end Sys2Proof
end

section
/-! SUPPORT and CERTIFICATE. The stages before execution (`spec/40_engine.md` R82 to R85, `spec/30_encoding.md` R67 to
R70): the faults of the fetch, the words that decode rejects, and the operand fetch. -/

namespace Sys2Proof

open Machine

/-! ## Fetch -/

/-- Settles O13: the two tests of `chk`. -/
theorem addressCheck : Obligations.AddressCheck := fun _ _ =>
  ⟨fun hneg => State.check_eq_error.2 (.inl ⟨hneg, rfl⟩),
    fun hle h0 => State.check_eq_error.2 (.inr ⟨h0, hle, rfl⟩),
    fun h0 hlt => State.check_eq_ok.2 ⟨h0, hlt, rfl⟩⟩

/-- Settles O9. -/
theorem engineIdlesUnlessRunning : Obligations.EngineIdlesUnlessRunning := fun _ => step_of_not_running

theorem Machine.step_of_fetchHeader_error {s : State} {f : Fault} (hr : s.engine = .running)
    (h : s.fetchHeader = .error f) : step s = .next (s.takeFault f) := by
  simp only [step, State.nextAction_of_running hr, State.fetch, h]

/-- Stage 1 raises the fault of `chk` (R82). -/
theorem Machine.step_of_check_error {s : State} {f : Fault} (hr : s.engine = .running)
    (h : s.check s.ip = .error f) : step s = .next (s.takeFault f) :=
  step_of_fetchHeader_error hr (State.fetchHeader_eq_error.2 (.inl (State.readCell_eq_error.2 h)))

theorem Machine.step_of_ip_negative {s : State} (hr : s.engine = .running) (h : s.ip < 0) :
    step s = .next (s.takeFault .negativeAddress) :=
  step_of_check_error hr (State.check_eq_error.2 (.inl ⟨h, rfl⟩))

theorem Machine.step_of_ip_past_end {s : State} (hr : s.engine = .running) (h : (s.cfg.memCells : Int) ≤ s.ip) :
    step s = .next (s.takeFault .addressOutOfRange) :=
  step_of_check_error hr (State.check_eq_error.2 (.inr ⟨by omega, h, rfl⟩))

/-- Settles O10: the two faults of `chk`, and the word 0, whose opcode is none of the ten. -/
theorem fetchFaults : Obligations.FetchFaults := by
  intro s hr
  refine ⟨step_of_ip_negative hr, step_of_ip_past_end hr, fun h0 h1 hz => ?_⟩
  have hw : s.readCell s.ip = .ok 0 := State.readCell_eq_ok.2 ⟨h0, h1, hz.symm⟩
  exact step_of_decodeWord_error hr hw (e := .invalidOpcode) (by decide)

/-! ## Rejected words -/

theorem toInt_eq_toNat_of_nonneg {w : Word} (h : 0 ≤ w.toInt) : w.toInt = w.toNat :=
  (toInt_eq_natCast_iff (n := w.toNat)).2 ⟨not_lt.2 h, rfl⟩

theorem decodeWord_of_negative {w : Word} (h : w.toInt < 0) : decodeWord w = .error .invalidOpcode := if_pos h

theorem Kind.opcode_mem (k : Kind) : (k.opcode : Int) ∈ ([1, 2, 3, 4, 5, 6, 7, 8, 9, 99] : List Int) := by
  cases k <;> decide

theorem decodeWord_of_no_kind {w : Word} (h0 : 0 ≤ w.toInt) (h : ∀ k : Kind, w.toInt % 100 ≠ k.opcode) :
    decodeWord w = .error .invalidOpcode := by
  have hnone : Kind.ofOpcode (w.toNat % 100) = none := by
    refine Option.eq_none_iff_forall_ne_some.2 fun k hk => h k ?_
    have hop := Kind.ofOpcode_eq_some.1 hk
    have hn := toInt_eq_toNat_of_nonneg h0
    omega
  unfold decodeWord
  rw [if_neg (not_lt.2 h0), hnone]

theorem digit_le_of_modeAt {k : Kind} {n j : Nat} {m : Mode} (h : modeAt k n j = some m)
    (hj : j < k.paramCount) : digit n (2 + j) ≤ 2 := by
  rw [modeAt_eq_some, if_pos hj] at h
  exact h ▸ m.digit_le

/-- Mode digits and surplus digits are tested before the write mode (R75, D11). -/
theorem decodeWord_of_bad_digit {w : Word} {k : Kind} (h0 : 0 ≤ w.toInt) (hop : w.toInt % 100 = k.opcode)
    (h : (∃ j < k.paramCount, 3 ≤ digit w.toNat (2 + j)) ∨ 10 ^ (2 + k.paramCount) ≤ w.toNat) :
    decodeWord w = .error .invalidMode := by
  have hn := toInt_eq_toNat_of_nonneg h0
  have hk : Kind.ofOpcode (w.toNat % 100) = some k := Kind.ofOpcode_eq_some.2 (by omega)
  unfold decodeWord
  rw [if_neg (not_lt.2 h0), hk]
  dsimp only
  split
  next m0 m1 m2 e0 e1 e2 =>
    have hsurplus : 10 ^ (2 + k.paramCount) ≤ w.toNat := by
      refine h.resolve_left ?_
      rintro ⟨j, hj, hd⟩
      have hj3 : j < 3 := hj.trans_le (Kind.paramCount_le k)
      have hle : digit w.toNat (2 + j) ≤ 2 := by
        interval_cases j
        exacts [digit_le_of_modeAt e0 hj, digit_le_of_modeAt e1 hj, digit_le_of_modeAt e2 hj]
      omega
    exact if_pos (Nat.div_pos hsurplus (by positivity)).ne'
  · rfl

/-- Settles O3: no kind has the opcode. -/
theorem unknownOpcodesFault : Obligations.UnknownOpcodesFault := fun _ _ hr hw h0 hop =>
  step_of_decodeWord_error hr hw
    (decodeWord_of_no_kind h0 fun k hk => hop (hk ▸ k.opcode_mem))

/-- Settles O5: the sign is tested first, then the mode digits, then the surplus digits. -/
theorem negativeAndMisModedWordsFault : Obligations.NegativeAndMisModedWordsFault := fun _ _ hr hw =>
  ⟨fun hneg => step_of_decodeWord_error hr hw (decodeWord_of_negative hneg),
    fun _ h0 hop hd => step_of_decodeWord_error hr hw (decodeWord_of_bad_digit h0 hop hd)⟩

/-! ## Operand fetch -/

/-- Operand words that the kind does not have are ignored. -/
theorem Header.instr_congr (h : Header) {o0 o1 o2 p0 p1 p2 : Word} (e0 : 0 < h.kind.paramCount → o0 = p0)
    (e1 : 1 < h.kind.paramCount → o1 = p1) (e2 : 2 < h.kind.paramCount → o2 = p2) :
    h.instr o0 o1 o2 = h.instr p0 p1 p2 := by
  obtain ⟨k, m0, m1, m2⟩ := h
  cases k <;> simp_all [Header.instr, Kind.paramCount, Kind.roles]

theorem Machine.State.operandWord_of_readCell {s : State} {kind : Kind} {k : Nat} {w : Word}
    (h : k < kind.paramCount → s.readCell (s.ip + 1 + k) = .ok w) :
    s.operandWord kind k = .ok (if k < kind.paramCount then w else 0) := by
  unfold State.operandWord
  split
  next hk => exact h hk
  · rfl

/-- With every operand word in a cell, stage 4 makes the instruction of those words (R85). -/
theorem Machine.State.fetchOperands_of_readCell {s : State} {h : Header} {o : Nat → Word}
    (ho : ∀ k < h.kind.paramCount, s.readCell (s.ip + 1 + k) = .ok (o k)) :
    s.fetchOperands h = .ok (h.instr (o 0) (o 1) (o 2)) := by
  refine State.fetchOperands_eq_ok.2 ⟨_, _, _, State.operandWord_of_readCell (ho 0),
    State.operandWord_of_readCell (ho 1), State.operandWord_of_readCell (ho 2), ?_⟩
  exact h.instr_congr (fun h0 => (if_pos h0).symm) (fun h1 => (if_pos h1).symm) fun h2 => (if_pos h2).symm

theorem Machine.State.exists_operandWord_error {s : State} {h : Header} {f : Fault}
    (he : s.fetchOperands h = .error f) : ∃ k, s.operandWord h.kind k = .error f := by
  unfold State.fetchOperands at he
  cases h0 : s.operandWord h.kind 0 with
  | error f0 => exact ⟨0, by rw [h0] at he; cases he; exact h0⟩
  | ok o0 =>
    cases h1 : s.operandWord h.kind 1 with
    | error f1 => exact ⟨1, by rw [h0, h1] at he; cases he; exact h1⟩
    | ok o1 =>
      cases h2 : s.operandWord h.kind 2 with
      | error f2 => exact ⟨2, by rw [h0, h1, h2] at he; cases he; exact h2⟩
      | ok o2 => rw [h0, h1, h2] at he; cases he

/-- Past a fetched instruction word no address is negative, so the operand fetch has one fault (R85). -/
theorem Machine.State.fetchOperands_error_eq {s : State} {h : Header} {f : Fault} (hip : 0 ≤ s.ip)
    (he : s.fetchOperands h = .error f) : f = .addressOutOfRange := by
  obtain ⟨k, hk⟩ := State.exists_operandWord_error he
  unfold State.operandWord at hk
  split at hk
  · rcases State.check_eq_error.1 (State.readCell_eq_error.1 hk) with ⟨hneg, _⟩ | ⟨_, _, hf⟩
    · omega
    · exact hf
  · cases hk

theorem Machine.Fetches.ip_nonneg {s : State} {h : Header} (hF : Fetches s h) : 0 ≤ s.ip := by
  obtain ⟨_, hw, _⟩ := hF
  exact (State.readCell_eq_ok.1 hw).1

theorem Instr.eq_input_of_kind {i : Instr} (h : i.header.kind = .input) : ∃ dst, i = .input dst := by
  cases i with
  | input dst => exact ⟨dst, rfl⟩
  | _ => cases h

/-- A step executes the instruction that its words make; for an INPUT with the queue empty, the stage before the
operand fetch and the instruction's own meaning come to the same (R84, R92). -/
theorem Machine.step_of_fetchOperands {s : State} {h : Header} {i : Instr} (hr : s.engine = .running)
    (hF : Fetches s h) (ho : s.fetchOperands h = .ok i) : step s = exec i s := by
  by_cases hi : h.kind = .input ∧ s.inq = []
  · obtain ⟨dst, rfl⟩ := Instr.eq_input_of_kind ((State.kind_of_fetchOperands ho).trans hi.1)
    rw [step_of_empty_queue hr hF hi.1 hi.2, execInput_nil hi.2]
  · have hh := State.fetchHeader_eq_ok.2 hF
    simp only [step, State.nextAction_of_running hr, State.fetch, hh, if_neg hi, ho]

theorem Machine.step_of_fetchOperands_error {s : State} {h : Header} {f : Fault} (hr : s.engine = .running)
    (hF : Fetches s h) (hi : ¬(h.kind = .input ∧ s.inq = [])) (ho : s.fetchOperands h = .error f) :
    step s = .next (s.takeFault f) := by
  have hh := State.fetchHeader_eq_ok.2 hF
  simp only [step, State.nextAction_of_running hr, State.fetch, hh, if_neg hi, ho]

/-- Settles O12: an operand word past the last cell stops stage 4, whose only fault it is; otherwise stage 4 reads
every word. -/
theorem operandFetch : Obligations.OperandFetch := by
  intro s h hr hF hi
  have hip := hF.ip_nonneg
  constructor
  · rintro ⟨k, hk, hpast⟩
    cases ho : s.fetchOperands h with
    | ok i =>
      obtain ⟨_, hend⟩ := State.fetchOperands_end hF ho
      have hl : h.kind.length = h.kind.paramCount + 1 := rfl
      omega
    | error f =>
      rw [step_of_fetchOperands_error hr hF hi ho, State.fetchOperands_error_eq hip ho]
  · intro hin
    have ho := State.fetchOperands_of_readCell (s := s) (h := h)
      (o := fun k => s.mem.read (s.ip + 1 + k).toNat)
      fun k hk => State.readCell_eq_ok.2 ⟨by omega, hin k hk, rfl⟩
    rw [step_of_fetchOperands hr hF ho]
    simp [add_assoc]

/-! ## The words at `ip` -/

theorem decode_eq_ok {ws rest : List Word} {i : Instr} (h : decode ws = .ok (i, rest)) :
    ∃ w os hd, ws = w :: os ∧ decodeWord w = .ok hd ∧ hd.kind.paramCount ≤ os.length ∧
      i = hd.instr (os.getD 0 0) (os.getD 1 0) (os.getD 2 0) := by
  cases ws with
  | nil => cases h
  | cons w os =>
    cases hw : decodeWord w with
    | error e =>
      simp only [decode, hw] at h
      cases h
    | ok hd =>
      simp only [decode, hw] at h
      split at h
      · cases h
      next hl =>
        cases h
        exact ⟨w, os, hd, rfl, hw, not_lt.1 hl, rfl⟩

/-- Words at `ip` that decode are fetched, and stage 4 makes the decoded instruction of them. -/
theorem Machine.WordsAtIp.fetches {s : State} {ws rest : List Word} {i : Instr} (hw : WordsAtIp s ws)
    (hd : decode ws = .ok (i, rest)) : ∃ h, Fetches s h ∧ s.fetchOperands h = .ok i := by
  obtain ⟨w, os, h, rfl, hh, hl, rfl⟩ := decode_eq_ok hd
  refine ⟨h, ⟨w, by simpa using hw 0 w rfl, hh⟩, State.fetchOperands_of_readCell (o := (os.getD · 0)) ?_⟩
  intro k hk
  have hk' : k < os.length := hk.trans_le hl
  have hcell := hw (k + 1) os[k] (by simp [hk'])
  simpa [hk', add_right_comm, ← add_assoc] using hcell

/-- Settles O7. -/
theorem stepRunsTheDecodedInstruction : Obligations.StepRunsTheDecodedInstruction := by
  intro s ws rest i hr hw hd
  obtain ⟨h, hF, ho⟩ := hw.fetches hd
  exact step_of_fetchOperands hr hF ho

end Sys2Proof
end

section
/-! SUPPORT and CERTIFICATE. The instructions (`spec/41_arithmetic.md` to `spec/45_base.md`): the completion of each,
its operand faults, and the words it is read from. -/

namespace Sys2Proof

open Machine

/-! ## The narrowing of a result -/

theorem toInt_ofInt_of_fits {v : Int} (h : fits64 v) : (BitVec.ofInt 64 v).toInt = v :=
  BitVec.toInt_ofInt_eq_self (by decide) h.1 (Int.lt_of_le_of_lt h.2 (by decide))

theorem narrow_of_fits {v : Int} (h : fits64 v) : narrow v = .ok (BitVec.ofInt 64 v) :=
  narrow_eq_ok.2 ⟨h, rfl⟩

theorem narrow_of_not_fits {v : Int} (h : ¬fits64 v) : narrow v = .error .overflow :=
  narrow_eq_error.2 ⟨h, rfl⟩

/-- Settles O26: an integer that fits is read back from its word. -/
theorem fittingResultsAreExact : Obligations.FittingResultsAreExact := fun _ =>
  ⟨fun h => ⟨_, narrow_of_fits h, toInt_ofInt_of_fits h⟩, narrow_of_not_fits⟩

/-! ## How an instruction is settled -/

theorem Machine.exec_of_result_ok {i : Instr} {s t : State} (h : s.result i = .ok t) : exec i s = .next t :=
  exec_eq_next.2 (.inl h)

theorem Machine.takesFault_of_result {i : Instr} {s : State} {f : Fault} (h : s.result i = .error f) :
    TakesFault i s f :=
  exec_eq_next.2 (.inr ⟨f, h, rfl⟩)

/-- The words of an instruction that has an encoding are read as that instruction, with no word left. -/
theorem decode_of_encode_eq {i : Instr} {ws : List Word} (h : i.wf = true) (hw : encode i = ws) :
    decode ws = .ok (i, []) := by
  simpa [hw] using decodeOfEncodeIsTheInstruction i [] h

theorem Instr.wf_of_writeParam {i : Instr} {p : Param} (hi : i.writeParam = some p) (hp : p.mode ≠ .immediate) :
    i.wf = true := by
  simp [Instr.wf, hi, hp]

/-! ## ADD, MUL, LESS_THAN, EQUALS -/

section

variable {s : State} {i : Instr} {f : Int → Int → Except Fault Word} {a b dst : Param}

/-- The operand faults of an instruction of the form `dst = f(a, b)`, in the order of R88. -/
theorem Machine.storingOperandFaults_of_result (hi : s.result i = s.storeBinary f a b dst) :
    StoringOperandFaults i s a b dst := by
  have hfault {e : Fault} (he : StoringOperandFails s a b dst e) : TakesFault i s e :=
    takesFault_of_result (hi.trans (State.storeBinary_eq_error.2 (.inl he)))
  exact {
    first := fun _ ha => hfault (.inl ha)
    second := fun x _ ha hb => hfault (.inr (.inl ⟨x, ha, hb⟩))
    third := fun x y _ ha hb hd => hfault (.inr (.inr ⟨x, y, ha, hb, hd⟩)) }

variable {x y : Word} {d : Nat} (hi : s.result i = s.storeBinary f a b dst) (hx : s.readParam a = .ok x)
  (hy : s.readParam b = .ok y) (hd : s.writeAddr dst = .ok d)
include hi hx hy hd

theorem Machine.exec_storeBinary {r : Word} (hr : f x.toInt y.toInt = .ok r) :
    exec i s = .next { s with mem := s.mem.write d r, ip := s.ip + 4 } :=
  exec_of_result_ok (hi.trans (State.storeBinary_eq_ok.2 ⟨x, y, d, r, hx, hy, hd, hr, rfl⟩))

theorem Machine.takesFault_storeBinary {e : Fault} (he : f x.toInt y.toInt = .error e) : TakesFault i s e :=
  takesFault_of_result (hi.trans (State.storeBinary_eq_error.2 (.inr ⟨x, y, d, hx, hy, hd, he⟩)))

end

/-- Settles O16: the operation is the exact sum, narrowed. -/
theorem addMeaning : Obligations.AddMeaning := fun _ _ _ _ =>
  ⟨fun hm => decode_of_encode_eq (Instr.wf_of_writeParam rfl hm) rfl,
    fun _ _ _ hx hy hd =>
      ⟨fun hv => exec_storeBinary State.result_add hx hy hd (narrow_of_fits hv),
        fun hv => takesFault_storeBinary State.result_add hx hy hd (narrow_of_not_fits hv)⟩,
    storingOperandFaults_of_result State.result_add⟩

/-- Settles O17: the operation is the exact product, narrowed. -/
theorem mulMeaning : Obligations.MulMeaning := fun _ _ _ _ =>
  ⟨fun hm => decode_of_encode_eq (Instr.wf_of_writeParam rfl hm) rfl,
    fun _ _ _ hx hy hd =>
      ⟨fun hv => exec_storeBinary State.result_mul hx hy hd (narrow_of_fits hv),
        fun hv => takesFault_storeBinary State.result_mul hx hy hd (narrow_of_not_fits hv)⟩,
    storingOperandFaults_of_result State.result_mul⟩

theorem ok_boolWord_decide_of_pos {p : Prop} [Decidable p] (h : p) :
    (.ok (boolWord (decide p)) : Except Fault Word) = .ok 1 := by simp [h, boolWord]

theorem ok_boolWord_decide_of_neg {p : Prop} [Decidable p] (h : ¬p) :
    (.ok (boolWord (decide p)) : Except Fault Word) = .ok 0 := by simp [h, boolWord]

/-- Settles O18: the operation is the signed comparison. -/
theorem lessThanMeaning : Obligations.LessThanMeaning := fun _ _ _ _ =>
  ⟨fun hm => decode_of_encode_eq (Instr.wf_of_writeParam rfl hm) rfl,
    fun _ _ _ hx hy hd =>
      ⟨fun hlt => exec_storeBinary State.result_lessThan hx hy hd (ok_boolWord_decide_of_pos hlt),
        fun hle => exec_storeBinary State.result_lessThan hx hy hd (ok_boolWord_decide_of_neg (not_lt.2 hle))⟩,
    storingOperandFaults_of_result State.result_lessThan⟩

/-- Settles O19: two words are equal when the integers they stand for are. -/
theorem equalsMeaning : Obligations.EqualsMeaning := fun _ _ _ _ =>
  ⟨fun hm => decode_of_encode_eq (Instr.wf_of_writeParam rfl hm) rfl,
    fun _ _ _ hx hy hd =>
      ⟨fun he => exec_storeBinary State.result_equals hx hy hd (ok_boolWord_decide_of_pos (BitVec.toInt_inj.2 he)),
        fun hne => exec_storeBinary State.result_equals hx hy hd
          (ok_boolWord_decide_of_neg (mt BitVec.toInt_inj.1 hne))⟩,
    storingOperandFaults_of_result State.result_equals⟩

/-- A symmetric operation on two operands that can be read gives the same either way round. -/
theorem Machine.State.storeBinary_comm {s : State} {f : Int → Int → Except Fault Word} {a b dst : Param}
    {x y : Word} (hf : ∀ v w, f v w = f w v) (hx : s.readParam a = .ok x) (hy : s.readParam b = .ok y) :
    s.storeBinary f a b dst = s.storeBinary f b a dst := by
  simp only [State.storeBinary, hx, hy, bind, Except.bind, hf x.toInt]

/-- Settles O27: the exact sum and the exact product are symmetric. -/
theorem addAndMulCommute : Obligations.AddAndMulCommute := fun s _ _ _ _ _ hx hy =>
  ⟨congrArg s.settle (State.storeBinary_comm (fun v w => by rw [add_comm]) hx hy),
    congrArg s.settle (State.storeBinary_comm (fun v w => by rw [mul_comm]) hx hy)⟩

/-! ## JMP_TRUE, JMP_FALSE, HALT -/

section

variable {s : State} {i : Instr} {taken : Word → Bool} {c target : Param}
  (hi : s.result i = s.jumpWhen taken c target)
include hi

/-- The operand faults of a jump, taken or not (R88, R141). -/
theorem Machine.readingOperandFaults_of_result : ReadingOperandFaults i s c target where
  first _ hc := takesFault_of_result (hi.trans (State.jumpWhen_eq_error.2 (.inl hc)))
  second x _ hc ht := takesFault_of_result (hi.trans (State.jumpWhen_eq_error.2 (.inr ⟨x, hc, ht⟩)))

variable {x v : Word} (hx : s.readParam c = .ok x) (hv : s.readParam target = .ok v)
include hx hv

theorem Machine.exec_jump_taken (h : taken x = true) : exec i s = .next (s.jump v) :=
  exec_of_result_ok (hi.trans (State.jumpWhen_eq_ok.2 ⟨x, v, hx, hv, (if_pos h).symm⟩))

theorem Machine.exec_jump_not_taken (h : taken x = false) : exec i s = .next (s.advance 3) :=
  exec_of_result_ok (hi.trans (State.jumpWhen_eq_ok.2 ⟨x, v, hx, hv, (if_neg (by simp [h])).symm⟩))

end

/-- Settles O20: a jump on a non-zero condition. -/
theorem jmpTrueMeaning : Obligations.JmpTrueMeaning := fun _ _ _ =>
  ⟨decode_of_encode_eq rfl rfl,
    fun _ _ hx hv =>
      ⟨fun h0 => exec_jump_taken rfl hx hv (holds_iff.2 h0),
        fun h0 => exec_jump_not_taken rfl hx hv (by simp [holds, h0])⟩,
    readingOperandFaults_of_result rfl⟩

/-- Settles O21: a jump on the condition 0. -/
theorem jmpFalseMeaning : Obligations.JmpFalseMeaning := fun _ _ _ =>
  ⟨decode_of_encode_eq rfl rfl,
    fun _ _ hx hv =>
      ⟨fun h0 => exec_jump_taken rfl hx hv (by simp [holds, h0]),
        fun h0 => exec_jump_not_taken rfl hx hv (by simp [holds_iff.2 h0])⟩,
    readingOperandFaults_of_result rfl⟩

/-- Settles O22: the row of HALT in the legal-word table has one word. -/
theorem haltMeaning : Obligations.HaltMeaning := by
  refine ⟨fun w => ?_, fun s => ⟨execHalt_eq s, rfl⟩⟩
  have h99 : w.toInt = 99 ↔ w = 99 := BitVec.toInt_inj (y := 99)
  rw [exists_decodeWord_kind_iff, ← h99]
  simp [legalWords]

/-- Settles O28: a taken jump sets `ip` unchecked, and `chk` meets it in the next step. -/
theorem badJumpTargetFaultsAtTheNextFetch : Obligations.BadJumpTargetFaultsAtTheNextFetch := by
  intro s t c target x v hr hx hv h
  have ht : t = s.jump v := by
    rcases h with ⟨h0, he⟩ | ⟨h0, he⟩
    · cases he.symm.trans (exec_jump_taken rfl hx hv (holds_iff.2 h0))
      rfl
    · cases he.symm.trans (exec_jump_taken rfl hx hv (by simp [holds, h0]))
      rfl
  subst ht
  exact ⟨hr, rfl, fun hneg => ⟨_, step_of_ip_negative hr hneg, rfl, rfl⟩,
    fun _ hpast => ⟨_, step_of_ip_past_end hr hpast, rfl, rfl⟩⟩

/-! ## INPUT, OUTPUT, BASE_OFFSET -/

/-- Settles O23: the queue's head is stored and popped, or its absence ends the run. -/
theorem inputMeaning : Obligations.InputMeaning := by
  intro s dst
  refine ⟨fun hm => decode_of_encode_eq (Instr.wf_of_writeParam rfl hm) rfl, by decide, ?_, ?_, ?_, ?_⟩
  · intro v rest d hq hd
    exact exec_of_result_ok ((State.result_input_cons hq).trans (State.inputTo_eq_ok.2 ⟨d, hd, rfl⟩))
  · intro v rest f hq hd
    exact takesFault_of_result ((State.result_input_cons hq).trans (State.inputTo_eq_error.2 hd))
  · intro hq hs
    exact exec_of_result_ok ((State.result_input_nil hq).trans (if_neg (by simp [hs])))
  · intro hq hs
    exact takesFault_of_result ((State.result_input_nil hq).trans (if_pos hs))

theorem Machine.State.outFull_iff {s : State} :
    s.outFull = true ↔ ∃ c, s.cfg.outqCapacity = some c ∧ c ≤ s.out.length := by
  rw [← Bool.not_eq_false, State.outFull_eq_false, withinCapacity_iff]
  push Not
  simp only [Nat.lt_succ_iff]

/-- Settles O24: the operand is resolved before the room in `OUT` is tested. -/
theorem outputMeaning : Obligations.OutputMeaning := by
  intro s a
  refine ⟨decode_of_encode_eq rfl rfl, fun x hx => ⟨fun hroom => ?_, fun c hc hfull => ?_⟩, fun f hf => ?_⟩
  · have hfull : s.outFull = false := State.outFull_eq_false.2 (withinCapacity_iff.2 hroom)
    exact exec_of_result_ok (State.outputParam_eq_ok.2 ⟨x, hx, hfull, rfl⟩)
  · have hfull : s.outFull = true := State.outFull_iff.2 ⟨c, hc, hfull⟩
    exact takesFault_of_result (State.outputParam_eq_error.2 (.inr ⟨x, hx, hfull, rfl⟩))
  · exact takesFault_of_result (State.outputParam_eq_error.2 (.inl hf))

/-- Settles O25: the exact sum, narrowed, of the old `rb` and the parameter resolved with it. -/
theorem baseOffsetMeaning : Obligations.BaseOffsetMeaning := by
  intro s a
  refine ⟨decode_of_encode_eq rfl rfl, fun x hx => ⟨fun hv => ?_, fun hv => ?_⟩, fun f hf => ?_⟩
  · exact exec_of_result_ok (State.offsetBase_eq_ok.2 ⟨x, _, hx, narrow_of_fits hv, rfl⟩)
  · exact takesFault_of_result (State.offsetBase_eq_error.2 (.inr ⟨x, hx, narrow_of_not_fits hv⟩))
  · exact takesFault_of_result (State.offsetBase_eq_error.2 (.inl hf))

/-- Settles O6. -/
theorem specWordsDecode : Obligations.SpecWordsDecode := ⟨rfl, rfl, rfl, rfl, rfl, rfl, rfl, rfl⟩

end Sys2Proof
end

section
/-! SUPPORT and CERTIFICATE. What instructions and steps leave unchanged: the default advance (R91), the frames, and
the rules of the whole machine (R34, R111, R161), read off from the ways to complete. -/

namespace Sys2Proof

open Machine

/-! ## What each way to complete changes -/

theorem Instr.StoresResult.writeParam_eq {i : Instr} {a b dst : Param} (h : i.StoresResult a b dst) :
    i.writeParam = some dst := by
  rcases h with rfl | rfl | rfl | rfl <;> rfl

theorem Instr.StoresResult.ne_input {i : Instr} {a b dst p : Param} (h : i.StoresResult a b dst) :
    i ≠ .input p := by
  rcases h with rfl | rfl | rfl | rfl <;> nofun

theorem Machine.sameMemoryBut_store {s : State} (h : s.mem.wf = true) (d : Nat) (v : Word) :
    SameMemoryBut d s (s.store d v) := fun a ha => by
  rw [State.store_mem, Memory.read_write_wf h, if_neg ha]

section

variable {s t : State} {i : Instr} (hc : s.Completes i t)
include hc

theorem Machine.State.Completes.sameRecord : SameRecord s t := by
  cases hc <;> exact ⟨rfl, rfl, rfl, rfl, rfl⟩

theorem Machine.State.Completes.rb_eq_or : t.rb = s.rb ∨ ∃ a, i = .baseOffset a := by
  cases hc with
  | setRb r => exact .inr ⟨_, rfl⟩
  | _ => exact .inl rfl

theorem Machine.State.Completes.inq_eq_or :
    t.inq = s.inq ∨ ∃ dst v, i = .input dst ∧ s.inq = v :: t.inq := by
  cases hc with
  | take hq hd => exact .inr ⟨_, _, rfl, hq⟩
  | _ => exact .inl rfl

theorem Machine.State.Completes.out_eq_or :
    t.out = s.out ∨ ∃ a v, i = .output a ∧ t.out = s.out ++ [v] := by
  cases hc with
  | emit x hroom => exact .inr ⟨_, x, rfl, rfl⟩
  | _ => exact .inl rfl

/-- A write parameter names the one cell that changes (R87, R90). -/
theorem Machine.State.Completes.storing_frame {dst : Param} (hw : i.writeParam = some dst)
    (hm : s.mem.wf = true) :
    (i = .input dst ∧ s.inq = [] ∧ t = s.suspend) ∨
    ∃ d, s.writeAddr dst = .ok d ∧ SameMemoryBut d s t ∧ SameRecord s t ∧ t.rb = s.rb ∧ t.out = s.out ∧
      t.engine = s.engine ∧ (i ≠ .input dst → t.inq = s.inq) ∧
      (i = .input dst → ∃ v, s.inq = v :: t.inq ∧ t.mem.read d = v) := by
  have hrec := hc.sameRecord
  cases hc with
  | @store _ _ _ _ d r hi hd =>
    cases hi.writeParam_eq.symm.trans hw
    exact .inr ⟨d, hd, sameMemoryBut_store hm d r, hrec, rfl, rfl, rfl, fun _ => rfl,
      fun h => absurd h hi.ne_input⟩
  | @take _ d v rest hq hd =>
    cases hw
    have hread : (s.mem.write d v).read d = v := by rw [Memory.read_write_wf hm, if_pos rfl]
    exact .inr ⟨d, hd, sameMemoryBut_store hm d v, hrec, rfl, rfl, rfl, fun h => absurd rfl h,
      fun _ => ⟨v, hq, hread⟩⟩
  | suspend hq hs =>
    cases hw
    exact .inl ⟨rfl, hq, rfl⟩
  | emit | setRb | halt => cases hw
  | jump hi | fall hi => rcases hi with rfl | rfl <;> cases hw

theorem Machine.State.Completes.sameMemory (hw : i.writeParam = none) : SameMemory s t := by
  cases hc with
  | store r hi hd => cases hi.writeParam_eq.symm.trans hw
  | take => cases hw
  | _ => exact fun _ => rfl

theorem Machine.State.Completes.out_of_output {a : Param} (hi : i = .output a) :
    ∃ x, t.out = s.out ++ [x] := by
  subst hi
  cases hc with
  | emit x hroom => exact ⟨x, rfl⟩
  | store _ hi => rcases hi with h | h | h | h <;> cases h
  | jump hi | fall hi => rcases hi with h | h <;> cases h

theorem Machine.State.Completes.inq_of_input {dst : Param} (hi : i = .input dst) (ht : t.engine = .running) :
    ∃ v, s.inq = v :: t.inq := by
  subst hi
  cases hc with
  | take hq hd => exact ⟨_, hq⟩
  | suspend => cases ht
  | store _ hi => exact absurd rfl hi.ne_input
  | jump hi | fall hi => rcases hi with h | h <;> cases h

/-- Only HALT, and an INPUT that suspends, touch `STATE`. -/
theorem Machine.State.Completes.engine_eq_or :
    t.engine = s.engine ∨ (i = .halt ∧ t = s.halt) ∨
      ∃ dst, i = .input dst ∧ s.inq = [] ∧ t = s.suspend := by
  cases hc with
  | halt => exact .inr (.inl ⟨rfl, rfl⟩)
  | suspend hq => exact .inr (.inr ⟨_, rfl, hq, rfl⟩)
  | _ => exact .inl rfl

/-- R91: the default advance, unless the run ends or a jump is taken. -/
theorem Machine.State.Completes.ip_cases (hh : i ≠ .halt) (hq : ∀ dst, i = .input dst → s.inq ≠ []) :
    (t.ip = s.ip + i.header.kind.length ∧ ¬JumpTaken s i) ∨
    (JumpTaken s i ∧ ∃ c target v, (i = .jmpTrue c target ∨ i = .jmpFalse c target) ∧
      s.readParam target = .ok v ∧ t.ip = v.toInt) := by
  have hno (hi : ∀ c target, i ≠ .jmpTrue c target ∧ i ≠ .jmpFalse c target) : ¬JumpTaken s i := fun hj => by
    obtain ⟨c, target, h | h⟩ := hj.is_jump
    exacts [(hi c target).1 h, (hi c target).2 h]
  cases hc with
  | store r hi hd =>
    refine .inl ⟨by rw [hi.length_eq]; rfl, hno fun c target => ?_⟩
    rcases hi with rfl | rfl | rfl | rfl <;> exact ⟨nofun, nofun⟩
  | take | emit | setRb => exact .inl ⟨rfl, hno fun _ _ => ⟨nofun, nofun⟩⟩
  | suspend hq' => exact absurd hq' (hq _ rfl)
  | jump hi hj hv => exact .inr ⟨hj, _, _, _, hi, hv, rfl⟩
  | fall hi hj => rcases hi with rfl | rfl <;> exact .inl ⟨rfl, hj⟩
  | halt => exact absurd rfl hh

end

/-! ## Instructions -/

/-- Settles O30, along the ways to complete. -/
theorem defaultAdvance : Obligations.DefaultAdvance := fun _ _ _ he hf hh hq =>
  ((exec_faults_or_completes he).resolve_left hf).ip_cases hh hq

/-- Settles O31: the write parameter is `dst`. -/
theorem storingFrame : Obligations.StoringFrame := by
  intro s t i a b dst hi hm he
  have hw : i.writeParam = some dst := by rcases hi with rfl | rfl | rfl | rfl | rfl <;> rfl
  exact (exec_faults_or_completes he).imp_right fun hc => hc.storing_frame hw hm

/-- Settles O32: there is no write parameter, and each other element has its one instruction. -/
theorem nonStoringFrame : Obligations.NonStoringFrame := by
  intro s t i a b hi he
  refine (exec_faults_or_completes he).imp_right fun hc => ?_
  have hw : i.writeParam = none := by rcases hi with rfl | rfl | rfl | rfl | rfl <;> rfl
  refine ⟨hc.sameMemory hw, hc.sameRecord, ?_, fun hb => ?_, fun ho => ?_, hc.out_of_output, fun hh => ?_, ?_⟩
  · rcases hc.inq_eq_or with h | ⟨dst, v, rfl, _⟩
    exacts [h, nomatch hw]
  · rcases hc.rb_eq_or with h | ⟨a', rfl⟩
    · exact h
    · obtain rfl : a' = a := by simpa using hi
      exact absurd rfl hb
  · rcases hc.out_eq_or with h | ⟨a', v, rfl, _⟩
    · exact h
    · obtain rfl : a' = a := by simpa using hi
      exact absurd rfl ho
  · rcases hc.engine_eq_or with h | ⟨h, _⟩ | ⟨dst, rfl, _⟩
    exacts [h, absurd h hh, nomatch hw]
  · rintro rfl
    cases (execHalt_eq s).symm.trans he
    exact ⟨rfl, rfl⟩

/-! ## Steps -/

theorem Machine.step_of_execute {s : State} {i : Instr} (h : s.nextAction = .execute i) : step s = exec i s := by
  simp only [step, h]

theorem Machine.Faults.engine_eq {s t : State} (h : Faults s t) : t.engine = .faulted := by
  obtain ⟨f, rfl⟩ := h
  rfl

/-- A step that executes an instruction and takes no fault completes it. -/
theorem Machine.State.completes_of_step {s t : State} {i : Instr} (ha : s.nextAction = .execute i)
    (h : step s = .next t) (hf : t.engine ≠ .faulted) : s.Completes i t :=
  (exec_faults_or_completes ((step_of_execute ha).symm.trans h)).resolve_left (mt Faults.engine_eq hf)

/-- A step that takes no fault is a suspension, or completes the instruction it executes. -/
theorem Machine.step_suspends_or_completes {s t : State} (hr : s.engine = .running) (h : step s = .next t)
    (hf : t.engine ≠ .faulted) :
    t = s.suspend ∨ ∃ i, s.nextAction = .execute i ∧ s.Completes i t := by
  rcases step_faults_or_completes hr h with hF | ⟨_, _, ht⟩ | ⟨_, i, _, _, ha, hc⟩
  exacts [absurd hF.engine_eq hf, .inl ht, .inr ⟨i, ha, hc⟩]

/-- Settles O42. -/
theorem onlyBaseOffsetChangesRb : Obligations.OnlyBaseOffsetChangesRb := by
  intro s t hr h hf hrb
  rcases step_suspends_or_completes hr h hf with rfl | ⟨i, ha, hc⟩
  · exact absurd rfl hrb
  · obtain ⟨a, rfl⟩ := hc.rb_eq_or.resolve_left hrb
    exact ⟨a, ha⟩

/-- Settles O43. -/
theorem queuesMoveOnlyByInputAndOutput : Obligations.QueuesMoveOnlyByInputAndOutput := by
  intro s t hr h hf
  refine ⟨?_, fun dst ha ht => (State.completes_of_step ha h hf).inq_of_input rfl ht, ?_,
    fun a ha => (State.completes_of_step ha h hf).out_of_output rfl⟩
  · rcases step_suspends_or_completes hr h hf with rfl | ⟨i, ha, hc⟩
    · exact .inl rfl
    · refine hc.inq_eq_or.imp_right ?_
      rintro ⟨dst, v, rfl, hq⟩
      exact ⟨dst, v, ha, hq⟩
  · rcases step_suspends_or_completes hr h hf with rfl | ⟨i, ha, hc⟩
    · exact .inl rfl
    · refine hc.out_eq_or.imp_right ?_
      rintro ⟨a, v, rfl, hv⟩
      exact ⟨a, v, ha, hv⟩

theorem Machine.step_keeps_cfg_strict {s t : State} (h : step s = .next t) :
    t.cfg = s.cfg ∧ t.strict = s.strict := by
  by_cases hr : s.engine = .running
  · rcases step_faults_or_completes hr h with ⟨f, rfl⟩ | ⟨_, _, rfl⟩ | ⟨_, i, _, _, _, hc⟩
    exacts [⟨rfl, rfl⟩, ⟨rfl, rfl⟩, ⟨hc.sameRecord.cfg, hc.sameRecord.strict⟩]
  · cases (step_of_not_running hr).symm.trans h
    exact ⟨rfl, rfl⟩

/-- Settles O57. -/
theorem stepsKeepTheParameters : Obligations.StepsKeepTheParameters :=
  ⟨fun _ _ => step_keeps_cfg_strict, fun s f => ⟨s.takeFault_cfg f, s.takeFault_strict f⟩⟩

end Sys2Proof
end

section
/-! SUPPORT and CERTIFICATE. Memory and the status register (`spec/20_memory.md`, `spec/10_state.md` R29, R30). -/

namespace Sys2Proof

open Machine

/-! ## Memory -/

theorem Machine.Memory.read_write_same {m : Memory} (h : m.wf = true) (a : Nat) (v : Word) :
    (m.write a v).read a = v := by
  rw [Memory.read_write_wf h, if_pos rfl]

/-- Settles O37: the fetch reads memory as any other read does. -/
theorem storeIsSeenAtOnce : Obligations.StoreIsSeenAtOnce := by
  intro s d v hm
  have hread : (s.store d v).mem.read d = v := Memory.read_write_same hm d v
  refine ⟨hread, sameMemoryBut_store hm d v, fun h hip hd => ?_⟩
  have hcell : (s.store d v).readCell s.ip = .ok v :=
    State.readCell_eq_ok.2 ⟨by omega, by rw [State.store_cfg]; omega, by rw [hip, Int.toNat_natCast, hread]⟩
  constructor
  · rintro ⟨w, hw, hd⟩
    cases hcell.symm.trans hw
    exact hd
  · exact fun hd => ⟨v, hcell, hd⟩

theorem Machine.Memory.read_cons_self {a : Nat} {v : Word} {m : Memory} : Memory.read ((a, v) :: m) a = v :=
  if_pos rfl

theorem Machine.Memory.read_cons_of_lt {a b : Nat} {v : Word} {m : Memory} (h : b < a) :
    Memory.read ((b, v) :: m) a = m.read a :=
  if_neg (by omega)

/-- A canonical memory is fixed by what its cells read: the lowest listed cell of one is the lowest of the other,
since below it the other reads 0. -/
theorem Machine.Memory.eq_of_read_eq {lo : Nat} : ∀ {m n : Memory}, Memory.wfFrom lo m = true →
    Memory.wfFrom lo n = true → (∀ a, m.read a = n.read a) → m = n
  | [], [], _, _, _ => rfl
  | [], (b, w) :: n, _, hn, h => by
    have hb : 0 = w := (h b).trans Memory.read_cons_self
    exact absurd hb.symm (Memory.wfFrom_cons.1 hn).2.1
  | (a, v) :: m, [], hm, _, h => by
    have ha : v = 0 := Memory.read_cons_self.symm.trans (h a)
    exact absurd ha (Memory.wfFrom_cons.1 hm).2.1
  | (a, v) :: m, (b, w) :: n, hm, hn, h => by
    obtain ⟨_, hv, hm'⟩ := Memory.wfFrom_cons.1 hm
    obtain ⟨_, hw, hn'⟩ := Memory.wfFrom_cons.1 hn
    rcases Nat.lt_trichotomy a b with hab | rfl | hab
    · have hn0 : Memory.wfFrom b ((b, w) :: n) = true := Memory.wfFrom_cons.2 ⟨Nat.le_refl b, hw, hn'⟩
      have ha : v = 0 := by rw [← Memory.read_below_lo hn0 hab, ← h, Memory.read_cons_self]
      exact absurd ha hv
    · have hvw : v = w := by simpa only [Memory.read_cons_self] using h a
      have htail : ∀ c, Memory.read m c = Memory.read n c := fun c => by
        rcases Nat.lt_or_ge a c with hc | hc
        · simpa only [Memory.read_cons_of_lt hc] using h c
        · rw [Memory.read_below_lo hm' (by omega), Memory.read_below_lo hn' (by omega)]
      rw [hvw, Memory.eq_of_read_eq hm' hn' htail]
    · have hm0 : Memory.wfFrom a ((a, v) :: m) = true := Memory.wfFrom_cons.2 ⟨Nat.le_refl a, hv, hm'⟩
      have hb : w = 0 := by rw [← Memory.read_below_lo hm0 hab, h, Memory.read_cons_self]
      exact absurd hb hw

/-- Settles O38. -/
theorem canonicalMemoriesAreEqualWhenTheyReadEqual : Obligations.CanonicalMemoriesAreEqualWhenTheyReadEqual :=
  fun _ _ => Memory.eq_of_read_eq

/-! ## The status register -/

theorem Machine.EngineState.code_le (e : EngineState) : e.code ≤ 5 := by cases e <;> decide

theorem Machine.Fault.code_pos (f : Fault) : 0 < f.code := by cases f <;> decide

theorem Machine.Fault.code_le (f : Fault) : f.code ≤ 8 := by cases f <;> decide

theorem eq_code_of_mem_stateNumbers {e : EngineState} {n : Nat} (h : (e, n) ∈ stateNumbers) : n = e.code := by
  cases e <;> simpa [stateNumbers, EngineState.code] using h

theorem eq_code_of_mem_faultNumbers {f : Fault} {n : Nat} (h : (f, n) ∈ faultNumbers) : n = f.code := by
  cases f <;> simpa [faultNumbers, Fault.code] using h

theorem Machine.State.done_eq_one_iff {s : State} : s.done = 1 ↔ s.engine = .halted := by
  simp [State.done]

theorem Machine.State.done_le (s : State) : s.done ≤ 1 := by
  unfold State.done
  split <;> omega

theorem Machine.State.faultCode_of_none {s : State} (h : s.fault = none) : s.faultCode = 0 := by
  simp only [State.faultCode, h]

theorem Machine.State.faultCode_of_some {s : State} {f : Fault} (h : s.fault = some f) : s.faultCode = f.code := by
  simp only [State.faultCode, h]

theorem Machine.State.faultCode_le (s : State) : s.faultCode ≤ 8 := by
  cases h : s.fault with
  | none => rw [State.faultCode_of_none h]; omega
  | some f => rw [State.faultCode_of_some h]; exact f.code_le

theorem Machine.State.faultCode_ne_zero_iff {s : State} : s.faultCode ≠ 0 ↔ s.fault.isSome = true := by
  cases h : s.fault with
  | none => simp [State.faultCode_of_none h]
  | some f => simpa [State.faultCode_of_some h] using f.code_pos.ne'

theorem Machine.State.status_toNat (s : State) :
    s.status.toNat = s.engine.code + 8 * s.done + 256 * s.faultCode := by
  have he := s.engine.code_le
  have hd := s.done_le
  have hf := s.faultCode_le
  rw [State.status, BitVec.toNat_ofNat]
  omega

/-- The bits of `STATUS` from `lo` on, `len` of them. -/
theorem Machine.State.status_field (s : State) (lo len : Nat) :
    (s.status.extractLsb' lo len).toNat =
      (s.engine.code + 8 * s.done + 256 * s.faultCode) / 2 ^ lo % 2 ^ len := by
  rw [BitVec.extractLsb'_toNat, s.status_toNat, Nat.shiftRight_eq_div_pow]

/-- Settles O34: the three numbers of `STATUS` are below the place of the next one. -/
theorem statusFields : Obligations.StatusFields := by
  intro s
  have he := s.engine.code_le
  have hd := s.done_le
  have hf := s.faultCode_le
  have hcode : (s.status.extractLsb' 8 4).toNat = s.faultCode := by rw [s.status_field]; omega
  refine ⟨?_, ?_, ?_, ?_, ?_, hcode, ?_, ?_⟩
  · rintro e n hn rfl
    rw [eq_code_of_mem_stateNumbers hn, s.status_field]
    omega
  · rw [← State.done_eq_one_iff, BitVec.getLsbD, Nat.testBit_eq_decide_div_mod_eq, s.status_toNat,
      decide_eq_true_eq]
    omega
  · apply BitVec.eq_of_toNat_eq
    rw [s.status_field]
    show _ / _ % _ = 0
    omega
  · intro hnone
    rw [hcode, State.faultCode_of_none hnone]
  · intro f n hn hsome
    rw [hcode, State.faultCode_of_some hsome, eq_code_of_mem_faultNumbers hn]
  · apply BitVec.eq_of_toNat_eq
    rw [s.status_field]
    show _ / _ % _ = 0
    omega
  · intro hinv
    rw [← hinv.fault_iff, ← State.faultCode_ne_zero_iff, ← hcode, BitVec.toNat_ne]
    rfl

/-- Settles O35. -/
theorem resetIsAfterLoad : Obligations.ResetIsAfterLoad :=
  ⟨rfl, rfl, rfl, rfl, rfl, rfl, rfl, rfl, fun _ => rfl, rfl⟩

end Sys2Proof
end

section
/-! SUPPORT and CERTIFICATE. The loop of RUN (`spec/40_engine.md` R96, R97, R100): how a run ends, that it can hang,
and strict against non-strict runs. -/

namespace Sys2Proof

open Machine

/-! ## The loop -/

theorem runLoop_zero {s : State} (hr : s.engine = .running) : runLoop 0 s = none := if_pos hr

theorem runLoop_succ {s t : State} (hr : s.engine = .running) (h : step s = .next t) (fuel : Nat) :
    runLoop (fuel + 1) s = runLoop fuel t := by
  simp only [runLoop, if_pos hr, h]

/-- What every step of a run keeps holds where the run ends, and there the engine is not RUNNING. -/
theorem runLoop_induction {P : State → Prop}
    (hstep : ∀ {s t}, s.engine = .running → P s → step s = .next t → P t) {t : State} :
    ∀ {fuel : Nat} {s : State}, P s → runLoop fuel s = some t → P t ∧ t.engine ≠ .running
  | fuel, s, hP, h => by
    by_cases hr : s.engine = .running
    · obtain ⟨u, hu⟩ := step_isNext s
      match fuel with
      | 0 => cases (runLoop_zero hr).symm.trans h
      | fuel + 1 => exact runLoop_induction hstep (hstep hr hP hu) ((runLoop_succ hr hu fuel).symm.trans h)
    · cases (runLoop_of_not_running hr fuel).symm.trans h
      exact ⟨hP, hr⟩

theorem runLoop_add {t : State} (more : Nat) : ∀ {fuel : Nat} {s : State}, runLoop fuel s = some t →
    runLoop (fuel + more) s = some t
  | fuel, s, h => by
    by_cases hr : s.engine = .running
    · obtain ⟨u, hu⟩ := step_isNext s
      match fuel with
      | 0 => cases (runLoop_zero hr).symm.trans h
      | fuel + 1 =>
        rw [runLoop_succ hr hu] at h
        rw [Nat.succ_add, runLoop_succ hr hu, runLoop_add more h]
    · rw [runLoop_of_not_running hr] at h ⊢
      exact h

/-- The states that a run passes through or ends in. -/
def Machine.EngineState.InRun (e : EngineState) : Prop :=
  e = .running ∨ e = .halted ∨ e = .suspended ∨ e = .faulted

theorem Machine.step_inRun {s t : State} (hr : s.engine = .running) (h : step s = .next t) : t.engine.InRun := by
  obtain ⟨u, hu, hcases⟩ := stepHasOneOfFourOutcomes s hr
  cases h.symm.trans hu
  rcases hcases with ⟨hrun, _⟩ | ⟨rfl, _⟩ | ⟨rfl, _⟩ | ⟨f, rfl⟩
  exacts [.inl hrun, .inr (.inl rfl), .inr (.inr (.inl rfl)), .inr (.inr (.inr rfl))]

theorem runLoop_end {s t : State} {fuel : Nat} (hr : s.engine = .running) (h : runLoop fuel s = some t) :
    t.engine = .halted ∨ t.engine = .suspended ∨ t.engine = .faulted := by
  obtain ⟨hin, hne⟩ := runLoop_induction (P := (·.engine.InRun)) (fun hr _ hs => step_inRun hr hs) (.inl hr) h
  exact hin.resolve_left hne

/-- Settles O44: the outcomes of a step, along the loop. -/
theorem runsEndOnlyInThreeStates : Obligations.RunsEndOnlyInThreeStates := fun _ _ _ hr h =>
  ⟨runLoop_end hr h, fun more => runLoop_add more h⟩

/-- Settles O45, by induction on the number of steps followed. -/
theorem stepToItselfHangs : Obligations.StepToItselfHangs := by
  intro s hr hs fuel
  induction fuel with
  | zero => exact runLoop_zero hr
  | succ fuel ih => rw [runLoop_succ hr hs, ih]

/-! ## The strict argument

A state under both strict arguments: the two runs take the same steps, and part only at an INPUT that finds the
queue empty (R97). -/

/-- The same state with the given strict argument. -/
def Machine.State.withStrict (s : State) (b : Bool) : State := { s with strict := b }

section

variable (s : State) (b : Bool)

@[simp] theorem Machine.State.readParam_withStrict (p : Param) :
    (s.withStrict b).readParam p = s.readParam p := rfl

@[simp] theorem Machine.State.writeAddr_withStrict (p : Param) :
    (s.withStrict b).writeAddr p = s.writeAddr p := rfl

theorem Machine.State.storeBinary_withStrict (f : Int → Int → Except Fault Word) (x y dst : Param) :
    (s.withStrict b).storeBinary f x y dst = (s.storeBinary f x y dst).map (·.withStrict b) := by
  cases hx : s.readParam x <;> cases hy : s.readParam y <;> cases hd : s.writeAddr dst <;>
    simp [State.storeBinary, hx, hy, hd, bind, Except.bind, Except.map]
  rename_i v w d
  cases f v.toInt w.toInt <;> rfl

theorem Machine.State.jumpWhen_withStrict (taken : Word → Bool) (c target : Param) :
    (s.withStrict b).jumpWhen taken c target = (s.jumpWhen taken c target).map (·.withStrict b) := by
  cases hc : s.readParam c <;> cases ht : s.readParam target <;>
    simp [State.jumpWhen, hc, ht, bind, Except.bind, Except.map]
  rename_i x v
  cases taken x <;> rfl

theorem Machine.State.inputTo_withStrict (v : Word) (rest : List Word) (dst : Param) :
    (s.withStrict b).inputTo v rest dst = (s.inputTo v rest dst).map (·.withStrict b) := by
  cases hd : s.writeAddr dst <;> simp [State.inputTo, hd, bind, Except.bind, Except.map]
  rfl

theorem Machine.State.outputParam_withStrict (a : Param) :
    (s.withStrict b).outputParam a = (s.outputParam a).map (·.withStrict b) := by
  have hfull : (s.withStrict b).outFull = s.outFull := rfl
  cases ha : s.readParam a <;> cases hf : s.outFull <;>
    simp [State.outputParam, ha, hf, hfull, bind, Except.bind, Except.map]
  rfl

theorem Machine.State.offsetBase_withStrict (a : Param) :
    (s.withStrict b).offsetBase a = (s.offsetBase a).map (·.withStrict b) := by
  have hrb : (s.withStrict b).rb = s.rb := rfl
  cases ha : s.readParam a with
  | error f => simp [State.offsetBase, ha, bind, Except.bind, Except.map]
  | ok x =>
    cases hr : narrow (s.rb.toInt + x.toInt) <;>
      simp [State.offsetBase, ha, hr, hrb, bind, Except.bind, Except.map]
    rfl

end

/-- Only an INPUT with the queue empty reads the strict argument (R97). -/
theorem Machine.State.result_withStrict {s : State} {i : Instr} (hi : (∃ dst, i = .input dst) → s.inq ≠ [])
    (b : Bool) : (s.withStrict b).result i = (s.result i).map (·.withStrict b) := by
  cases i with
  | add x y dst | mul x y dst | lessThan x y dst | equals x y dst =>
    simp only [State.result, State.storeBinary_withStrict]
  | input dst =>
    obtain ⟨v, rest, hq⟩ := List.exists_cons_of_ne_nil (hi ⟨dst, rfl⟩)
    rw [State.result_input_cons hq, State.result_input_cons (s := s.withStrict b) hq]
    exact s.inputTo_withStrict b v rest dst
  | output a => exact s.outputParam_withStrict b a
  | jmpTrue c target | jmpFalse c target => exact s.jumpWhen_withStrict b _ c target
  | baseOffset a => exact s.offsetBase_withStrict b a
  | halt => rfl

/-! ## Where `InputUnderflow` comes from -/

section

variable {s : State} {f : Fault}

theorem Machine.State.check_error_ne_underflow {a : Int} (h : s.check a = .error f) : f ≠ .inputUnderflow := by
  rcases State.check_eq_error.1 h with ⟨_, rfl⟩ | ⟨_, _, rfl⟩ <;> decide

theorem Machine.State.readCell_error_ne_underflow {a : Int} (h : s.readCell a = .error f) :
    f ≠ .inputUnderflow :=
  State.check_error_ne_underflow (State.readCell_eq_error.1 h)

theorem Machine.State.readParam_error_ne_underflow {p : Param} (h : s.readParam p = .error f) :
    f ≠ .inputUnderflow := by
  unfold State.readParam at h
  split at h
  · cases h
  · exact State.readCell_error_ne_underflow h

theorem Machine.State.writeAddr_error_ne_underflow {p : Param} (h : s.writeAddr p = .error f) :
    f ≠ .inputUnderflow := by
  unfold State.writeAddr at h
  split at h
  · cases h
    decide
  · exact State.check_error_ne_underflow h

theorem narrow_error_ne_underflow {v : Int} (h : narrow v = .error f) : f ≠ .inputUnderflow := by
  obtain ⟨_, rfl⟩ := narrow_eq_error.1 h
  decide

theorem Machine.State.storeBinary_error_ne_underflow {op : Int → Int → Except Fault Word} {a b dst : Param}
    (h : s.storeBinary op a b dst = .error f) (hop : ∀ {v w}, op v w = .error f → f ≠ .inputUnderflow) :
    f ≠ .inputUnderflow := by
  rcases State.storeBinary_eq_error.1 h with hf | ⟨_, _, _, _, _, _, hf⟩
  · rcases hf.exists_param with ha | hb | hd
    exacts [State.readParam_error_ne_underflow ha, State.readParam_error_ne_underflow hb,
      State.writeAddr_error_ne_underflow hd]
  · exact hop hf

theorem Machine.State.jumpWhen_error_ne_underflow {taken : Word → Bool} {c target : Param}
    (h : s.jumpWhen taken c target = .error f) : f ≠ .inputUnderflow := by
  rcases State.jumpWhen_eq_error.1 h with hc | ⟨_, _, ht⟩
  exacts [State.readParam_error_ne_underflow hc, State.readParam_error_ne_underflow ht]

/-- No instruction but an INPUT with the queue empty raises `InputUnderflow` (R174). -/
theorem Machine.State.result_error_ne_underflow {i : Instr} (hi : (∃ dst, i = .input dst) → s.inq ≠ [])
    (h : s.result i = .error f) : f ≠ .inputUnderflow := by
  cases i with
  | add a b dst =>
    exact State.storeBinary_error_ne_underflow (State.result_add.symm.trans h) narrow_error_ne_underflow
  | mul a b dst =>
    exact State.storeBinary_error_ne_underflow (State.result_mul.symm.trans h) narrow_error_ne_underflow
  | lessThan a b dst => exact State.storeBinary_error_ne_underflow (State.result_lessThan.symm.trans h) nofun
  | equals a b dst => exact State.storeBinary_error_ne_underflow (State.result_equals.symm.trans h) nofun
  | input dst =>
    obtain ⟨v, rest, hq⟩ := List.exists_cons_of_ne_nil (hi ⟨dst, rfl⟩)
    rw [State.result_input_cons hq, State.inputTo_eq_error] at h
    exact State.writeAddr_error_ne_underflow h
  | output a =>
    rcases State.outputParam_eq_error.1 h with ha | ⟨_, _, _, rfl⟩
    exacts [State.readParam_error_ne_underflow ha, by decide]
  | jmpTrue c target | jmpFalse c target => exact State.jumpWhen_error_ne_underflow h
  | baseOffset a =>
    rcases State.offsetBase_eq_error.1 h with ha | ⟨_, _, hr⟩
    exacts [State.readParam_error_ne_underflow ha, narrow_error_ne_underflow hr]
  | halt => cases h

theorem Machine.State.fetchHeader_error_ne_underflow (h : s.fetchHeader = .error f) : f ≠ .inputUnderflow := by
  rcases State.fetchHeader_eq_error.1 h with hr | ⟨_, e, _, _, rfl⟩
  · exact State.readCell_error_ne_underflow hr
  · cases e <;> decide

end

/-! ## Strict and non-strict runs -/

/-- The step is that of an INPUT with the queue empty (R84). -/
def Machine.State.Starves (s : State) : Prop := ∃ h, Fetches s h ∧ h.kind = .input ∧ s.inq = []

theorem Machine.step_withStrict_of_starves {s : State} (hr : s.engine = .running) (h : s.Starves) (b : Bool) :
    step (s.withStrict b) = .next (s.withStrict b).starve := by
  obtain ⟨hd, hF, hk, hq⟩ := h
  exact step_of_empty_queue (s := s.withStrict b) hr hF hk hq

/-- The step from `s` comes to `t` under both arguments; it does not suspend and raises no `InputUnderflow`. -/
structure Machine.State.StepsAlike (s t : State) : Prop where
  step_eq : ∀ b, step (s.withStrict b) = .next (t.withStrict b)
  not_suspended : t.engine ≠ .suspended
  no_underflow : s.fault ≠ some .inputUnderflow → t.fault ≠ some .inputUnderflow

theorem Machine.State.stepsAlike_takeFault {s : State} {f : Fault} (hf : f ≠ .inputUnderflow)
    (h : ∀ b, step (s.withStrict b) = .next ((s.withStrict b).takeFault f)) : s.StepsAlike (s.takeFault f) :=
  ⟨h, nofun, fun _ => by simpa using hf⟩

/-- Every step but the starving one is the same under both arguments. -/
theorem Machine.State.exists_stepsAlike {s : State} (hr : s.engine = .running) (h : ¬s.Starves) :
    ∃ t, s.StepsAlike t := by
  cases hh : s.fetchHeader with
  | error f =>
    exact ⟨_, State.stepsAlike_takeFault (State.fetchHeader_error_ne_underflow hh)
      fun b => step_of_fetchHeader_error (s := s.withStrict b) hr hh⟩
  | ok hd =>
    have hF := State.fetchHeader_eq_ok.1 hh
    have hne : ¬(hd.kind = .input ∧ s.inq = []) := fun hi => h ⟨hd, hF, hi⟩
    cases ho : s.fetchOperands hd with
    | error f =>
      have hf : f ≠ .inputUnderflow := by
        rw [State.fetchOperands_error_eq hF.ip_nonneg ho]
        decide
      exact ⟨_, State.stepsAlike_takeFault hf
        fun b => step_of_fetchOperands_error (s := s.withStrict b) hr hF hne ho⟩
    | ok i =>
      have hi : (∃ dst, i = .input dst) → s.inq ≠ [] := by
        rintro ⟨dst, rfl⟩ hq
        exact hne ⟨(State.kind_of_fetchOperands ho).symm, hq⟩
      have hstep (b : Bool) : step (s.withStrict b) =
          (s.withStrict b).settle ((s.result i).map (·.withStrict b)) := by
        rw [← State.result_withStrict hi, ← exec_eq_settle]
        exact step_of_fetchOperands (s := s.withStrict b) hr hF ho
      cases hres : s.result i with
      | error f =>
        exact ⟨_, State.stepsAlike_takeFault (State.result_error_ne_underflow hi hres)
          fun b => by rw [hstep, hres]; rfl⟩
      | ok t =>
        have hc := State.completes_of_result hres
        refine ⟨t, fun b => by rw [hstep, hres]; rfl, ?_, by rw [hc.sameRecord.fault]; exact id⟩
        rcases hc.engine_eq_or with he | ⟨_, rfl⟩ | ⟨dst, rfl, hq, _⟩
        · simp [he, hr]
        · simp
        · exact absurd hq (hi ⟨dst, rfl⟩)

/-- Both runs are unended, or end in the same state, or part at an INPUT that finds the queue empty. -/
theorem runLoop_withStrict_cases : ∀ (fuel : Nat) {s : State}, s.engine ≠ .suspended →
    s.fault ≠ some .inputUnderflow →
    (∀ b, runLoop fuel (s.withStrict b) = none) ∨
    (∃ t : State, (∀ b, runLoop fuel (s.withStrict b) = some (t.withStrict b)) ∧ t.engine ≠ .suspended ∧
      t.fault ≠ some .inputUnderflow) ∨
    (∃ t : State, runLoop fuel (s.withStrict false) = some (t.withStrict false).suspend ∧
      runLoop fuel (s.withStrict true) = some ((t.withStrict true).takeFault .inputUnderflow))
  | fuel, s, he, hu => by
    by_cases hr : s.engine = .running
    · match fuel with
      | 0 => exact .inl fun b => runLoop_zero hr
      | fuel + 1 =>
        by_cases hs : s.Starves
        · have hrun (b : Bool) : runLoop (fuel + 1) (s.withStrict b) = runLoop fuel (s.withStrict b).starve :=
            runLoop_succ (s := s.withStrict b) hr (step_withStrict_of_starves hr hs b) fuel
          refine .inr (.inr ⟨s, ?_, ?_⟩)
          · exact (hrun false).trans (runLoop_of_not_running (s := (s.withStrict false).suspend) nofun fuel)
          · exact (hrun true).trans (runLoop_of_not_running (s := (s.withStrict true).takeFault _) nofun fuel)
        · obtain ⟨t, ht⟩ := State.exists_stepsAlike hr hs
          have hrun (b : Bool) : runLoop (fuel + 1) (s.withStrict b) = runLoop fuel (t.withStrict b) :=
            runLoop_succ (s := s.withStrict b) hr (ht.step_eq b) fuel
          simp only [hrun]
          exact runLoop_withStrict_cases fuel ht.not_suspended (ht.no_underflow hu)
    · exact .inr (.inl ⟨s, fun b => runLoop_of_not_running (s := s.withStrict b) hr fuel, he, hu⟩)

/-- Settles O46: along the loop, the two runs stay the same but for the strict argument until one starves. -/
theorem strictRunsDifferOnlyWhereNonStrictSuspends :
    Obligations.StrictRunsDifferOnlyWhereNonStrictSuspends := by
  intro s fuel hr hf
  change (runLoop fuel (s.withStrict true) = none ↔ runLoop fuel (s.withStrict false) = none) ∧
    ∀ t, runLoop fuel (s.withStrict false) = some t →
      ∃ u, runLoop fuel (s.withStrict true) = some u ∧ _
  rcases runLoop_withStrict_cases fuel (s := s) (by simp [hr]) (by simp [hf]) with
    hnone | ⟨t, ht, hte, htu⟩ | ⟨t, ht, hu⟩
  · refine ⟨by simp [hnone], fun t ht => ?_⟩
    cases (hnone false).symm.trans ht
  · refine ⟨by simp [ht], fun t' ht' => ⟨t.withStrict true, ht true, ?_⟩⟩
    cases (ht false).symm.trans ht'
    exact ⟨⟨fun h => absurd h htu, fun h => absurd h hte⟩, fun h => absurd h hte, fun _ => rfl⟩
  · refine ⟨by simp [ht, hu], fun t' ht' => ⟨_, hu, ?_⟩⟩
    cases ht.symm.trans ht'
    exact ⟨⟨fun _ => rfl, fun _ => rfl⟩, fun _ => ⟨rfl, rfl⟩, fun h => absurd rfl h⟩

end Sys2Proof
end

section
/-! SUPPORT and CERTIFICATE. The host transactions (`spec/40_engine.md` R96 to R109): what each does where it is
accepted, where it is refused, and that none breaks the invariant. -/

namespace Sys2Proof

open Machine

/-! ## Acceptance -/

theorem Machine.transact_of_not_accepted {fuel : Nat} {x : Transaction} {s : State}
    (h : x.acceptedIn s.engine = false) : transact fuel x s = .refused :=
  if_neg (by simp [h])

theorem Machine.acceptedIn_of_transact {fuel : Nat} {x : Transaction} {r : Result} {s t : State}
    (h : transact fuel x s = .accepted r t) : x.acceptedIn s.engine = true := by
  by_contra hx
  cases (transact_of_not_accepted (eq_false_of_ne_true hx)).symm.trans h

theorem Machine.transact_load {fuel : Nat} {program inputs : List Word} {s : State} (h : s.engine ≠ .running) :
    transact fuel (.load program inputs) s = s.performLoad program inputs :=
  if_pos (decide_eq_true h)

section

variable {fuel : Nat} {s : State} (h : s.engine.usable = true)
include h

theorem Machine.transact_run (vs : List Word) (strict : Bool) :
    transact fuel (.run vs strict) s = s.performRun fuel vs strict := if_pos h

theorem Machine.transact_pushInput (v : Word) : transact fuel (.pushInput v) s = s.performPush v := if_pos h

theorem Machine.transact_outRead (i : Int) : transact fuel (.outRead i) s = s.performOutRead i := if_pos h

theorem Machine.transact_peek (a : Int) : transact fuel (.peek a) s = s.performPeek a := if_pos h

theorem Machine.transact_poke (a : Int) (v : Word) : transact fuel (.poke a v) s = s.performPoke a v := if_pos h

theorem Machine.engine_ne_faulted_of_usable : s.engine ≠ .faulted := fun he => by
  rw [he] at h
  cases h

end

/-- Settles O56, transaction by transaction. -/
theorem acceptanceTable : Obligations.AcceptanceTable := by
  intro fuel x s
  refine ⟨fun he => ?_, fun he hstatus hload => ?_, fun he hstatus hip hload => ?_, fun he => ?_, fun he => ?_,
    fun he => if_pos (decide_eq_true he)⟩
  · apply transact_of_not_accepted
    rw [he]
    cases x <;> rfl
  · apply transact_of_not_accepted
    rw [he]
    cases x with
    | load program inputs => exact absurd rfl (hload program inputs)
    | status => exact absurd rfl hstatus
    | _ => rfl
  · apply transact_of_not_accepted
    rw [he]
    cases x with
    | load program inputs => exact absurd rfl (hload program inputs)
    | status => exact absurd rfl hstatus
    | faultIp => exact absurd rfl hip
    | _ => rfl
  · exact transact_of_not_accepted (decide_eq_false he)
  · exact if_pos (decide_eq_true he)

/-! ## RUN -/

theorem Machine.State.startRun_of_halted {s : State} (h : s.engine = .halted) (vs : List Word) (strict : Bool) :
    s.startRun vs strict = s.pushInputs vs := if_pos h

theorem Machine.State.startRun_of_not_halted {s : State} (h : s.engine ≠ .halted) (vs : List Word)
    (strict : Bool) :
    s.startRun vs strict = { s with inq := s.inq ++ vs, engine := .running, strict := strict } := if_neg h

theorem Machine.State.performRun_of_room {s t : State} {fuel : Nat} {vs : List Word} {strict : Bool}
    (hroom : s.inqRoom vs.length = true) (h : runLoop fuel (s.startRun vs strict) = some t) :
    s.performRun fuel vs strict = .accepted t.runResult t := by
  simp only [State.performRun, hroom, h, if_true]

theorem Machine.State.performRun_eq_accepted {s t : State} {fuel : Nat} {vs : List Word} {strict : Bool}
    {r : Result} (h : s.performRun fuel vs strict = .accepted r t) :
    s.inqRoom vs.length = true ∧ runLoop fuel (s.startRun vs strict) = some t ∧ r = t.runResult := by
  unfold State.performRun at h
  split at h
  next hroom =>
    split at h
    next u hu =>
      cases h
      exact ⟨hroom, hu, rfl⟩
    · cases h
  · cases h

theorem Machine.State.performRun_eq_refused {s : State} {fuel : Nat} {vs : List Word} {strict : Bool} :
    s.performRun fuel vs strict = .refused ↔ s.inqRoom vs.length = false := by
  unfold State.performRun
  cases s.inqRoom vs.length with
  | false => simp
  | true => cases runLoop fuel (s.startRun vs strict) <;> simp

theorem Machine.State.inqRoom_iff {s : State} {n : Nat} :
    s.inqRoom n = true ↔ ∀ c, s.cfg.inqCapacity = some c → s.inq.length + n ≤ c := withinCapacity_iff

theorem Machine.State.inqRoom_eq_false {s : State} {n : Nat} :
    s.inqRoom n = false ↔ ∃ c, s.cfg.inqCapacity = some c ∧ c < s.inq.length + n := by
  rw [← Bool.not_eq_true, State.inqRoom_iff]
  push Not
  rfl

theorem runLoop_startRun_end {s t : State} {fuel : Nat} {vs : List Word} {strict : Bool}
    (h : runLoop fuel (s.startRun vs strict) = some t) :
    t.engine = .halted ∨ t.engine = .suspended ∨ t.engine = .faulted := by
  by_cases hh : s.engine = .halted
  · rw [State.startRun_of_halted hh, runLoop_of_not_running (by simp [hh])] at h
    cases h
    exact .inl hh
  · rw [State.startRun_of_not_halted hh] at h
    exact runLoop_end rfl h

/-- Settles O47: the loop ends in one of three states, and the room alone decides the refusal. -/
theorem runReturnsItsOutcome : Obligations.RunReturnsItsOutcome := by
  intro fuel vs strict s hu
  rw [transact_run hu, State.performRun_eq_refused, State.inqRoom_eq_false]
  refine ⟨fun r t h => ?_, Iff.rfl⟩
  obtain ⟨_, hl, rfl⟩ := State.performRun_eq_accepted h
  rcases runLoop_startRun_end hl with he | he | he
  · exact .inl ⟨he, by simp [State.runResult, he, State.lastOut], by simp [State.done, he]⟩
  · exact .inr (.inl ⟨he, by simp [State.runResult, he, State.lastOut], by simp [State.done, he]⟩)
  · exact .inr (.inr ⟨he, by simp [State.runResult, he], by simp [State.done, he]⟩)

/-- Settles O50: the resumed step starves again. -/
theorem resumingWithNoInputSuspendsAgain : Obligations.ResumingWithNoInputSuspendsAgain := by
  intro fuel s h he hq hF hk
  have hu : s.engine.usable = true := by rw [he]; rfl
  have hroom : s.inqRoom 0 = true := State.inqRoom_iff.2 fun c _ => by simp [hq]
  have hrun (b : Bool) : runLoop (fuel + 1) (s.startRun [] b) =
      runLoop fuel (State.starve { s with engine := .running, strict := b }) := by
    rw [State.startRun_of_not_halted (by simp [he]), List.append_nil]
    exact runLoop_succ rfl (step_of_empty_queue (s := { s with engine := .running, strict := b }) rfl hF hk hq) fuel
  have hsuspend : runLoop (fuel + 1) (s.startRun [] false) =
      some { s with engine := .suspended, strict := false } :=
    (hrun false).trans (runLoop_of_not_running (s := { s with engine := .suspended, strict := false }) nofun fuel)
  have hfault : runLoop (fuel + 1) (s.startRun [] true) =
      some (State.takeFault { s with engine := .running, strict := true } .inputUnderflow) :=
    (hrun true).trans (runLoop_of_not_running (s := State.takeFault _ _) nofun fuel)
  refine ⟨?_, _, (transact_run hu [] true).trans (State.performRun_of_room hroom hfault), rfl, rfl⟩
  rw [transact_run hu, State.performRun_of_room hroom hsuspend, ← he]
  simp only [State.runResult, he]
  rfl

theorem Machine.WordsAtIp.of_same_cells {s t : State} {ws : List Word} (hw : WordsAtIp s ws)
    (hcfg : t.cfg = s.cfg) (hmem : t.mem = s.mem) (hip : t.ip = s.ip) : WordsAtIp t ws := fun k w hk => by
  have hcell := hw k w hk
  rw [State.readCell_eq_ok] at hcell ⊢
  rwa [hcfg, hmem, hip]

/-- Settles O51: the start of the run changes no word at `ip`. -/
theorem resumingExecutesThePendingInput : Obligations.ResumingExecutesThePendingInput := by
  intro s v strict ws rest dst d he hq hw hdec hd
  have hstart := State.startRun_of_not_halted (s := s) (by simp [he]) [v] strict
  rw [hq, List.nil_append] at hstart
  rw [hstart]
  have hstep := stepRunsTheDecodedInstruction { s with inq := [v], engine := .running, strict := strict } ws rest
    (.input dst) rfl (hw.of_same_cells rfl rfl rfl) hdec
  obtain ⟨_, _, htake, _⟩ := inputMeaning { s with inq := [v], engine := .running, strict := strict } dst
  have hexec := htake v [] d rfl hd
  rw [hq]
  exact hstep.trans hexec

theorem Machine.State.pushInputs_pushInputs (s : State) (us vs : List Word) :
    (s.pushInputs us).pushInputs vs = s.pushInputs (us ++ vs) := by
  simp only [State.pushInputs, List.append_assoc]

/-- Settles O52: the first input is appended before the others either way. -/
theorem runWithInputsIsPushesThenRun : Obligations.RunWithInputsIsPushesThenRun := by
  intro fuel v vs strict s hu hroom
  have hfit := State.inqRoom_iff.1 hroom
  have hpush : s.inqRoom 1 = true := State.inqRoom_iff.2 fun c hc => by
    have hle := hfit c hc
    omega
  have hrest : (s.pushInputs [v]).inqRoom vs.length = s.inqRoom (v :: vs).length := by
    have hlen : (s.inq ++ [v]).length + vs.length = s.inq.length + (v :: vs).length := by
      simp only [List.length_append, List.length_cons, List.length_nil]
      omega
    exact congrArg (withinCapacity s.cfg.inqCapacity) hlen
  have hstart : (s.pushInputs [v]).startRun vs strict = s.startRun (v :: vs) strict := by
    rw [State.startRun, State.pushInputs_pushInputs]
    rfl
  refine ⟨s.pushInputs [v], (transact_pushInput hu v).trans (if_pos hpush), rfl, hrest.trans hroom, ?_⟩
  rw [transact_run hu, transact_run (s := s.pushInputs [v]) hu, State.performRun, State.performRun, hrest, hstart]

/-! ## LOAD, PUSH_INPUT, PEEK and POKE -/

/-- Settles O48. -/
theorem pushInputAppends : Obligations.PushInputAppends := fun _ v _ hu =>
  ⟨fun hroom => (transact_pushInput hu v).trans (if_pos (State.inqRoom_iff.2 hroom)),
    fun c hc hfull => (transact_pushInput hu v).trans
      (if_neg (by rw [Bool.not_eq_true, State.inqRoom_eq_false]; exact ⟨c, hc, Nat.lt_succ_of_le hfull⟩))⟩

/-- Settles O53: the program's words are the cells from 0 on. -/
theorem loadSetsTheState : Obligations.LoadSetsTheState := by
  intro fuel program inputs s hr
  rw [transact_load hr, State.performLoad]
  refine ⟨fun hlong => if_neg fun h => absurd h.1 (by omega), fun c hc hlong => if_neg fun h => ?_,
    fun hp hi => ?_⟩
  · exact absurd (withinCapacity_iff.1 h.2 c hc) (by omega)
  · refine ⟨s.loaded program inputs, if_pos ⟨hp, withinCapacity_iff.2 hi⟩, fun a => ?_,
      Memory.wf_ofProgram program, rfl, rfl, rfl, rfl, rfl, rfl, rfl⟩
    simpa [State.loaded] using (Memory.read_ofProgram program 0 a).2

/-- Settles O54: PEEK and POKE make the test of `chk`. -/
theorem peekAndPoke : Obligations.PeekAndPoke := by
  intro fuel a v s hu hm
  refine ⟨fun h0 h1 => ?_, fun hout => ?_⟩
  · have hcheck : s.check a = .ok a.toNat := State.check_eq_ok.2 ⟨h0, h1, rfl⟩
    have hpeek (t : State) (hcfg : t.cfg = s.cfg) :
        t.performPeek a = .accepted (.word (t.mem.read a.toNat)) t := by
      rw [State.performPeek, State.readCell_eq_ok.2 ⟨h0, hcfg ▸ h1, rfl⟩]
    refine ⟨(transact_peek hu a).trans (hpeek s rfl), s.store a.toNat v, ?_, rfl,
      sameMemoryBut_store hm _ v, ?_⟩
    · rw [transact_poke hu, State.performPoke, hcheck]
    · rw [transact_peek (s := s.store a.toNat v) hu, hpeek (s.store a.toNat v) rfl, State.store_mem,
        Memory.read_write_same hm]
  · obtain ⟨f, hf⟩ : ∃ f, s.check a = .error f := by
      rcases Int.lt_or_le a 0 with hneg | h0
      · exact ⟨_, State.check_eq_error.2 (.inl ⟨hneg, rfl⟩)⟩
      · exact ⟨_, State.check_eq_error.2 (.inr ⟨h0, by omega, rfl⟩)⟩
    rw [transact_peek hu, transact_poke hu, State.performPeek, State.performPoke,
      State.readCell_eq_error.2 hf, hf]
    exact ⟨rfl, rfl⟩

/-! ## The output -/

theorem Machine.getOutput_of_usable {s : State} {n : Int} (h : s.engine.usable = true) :
    getOutput n s = if n = 1 then .last s.lastOut
      else if 2 ≤ n ∧ n ≤ s.out.length then .lastN (s.out.drop (s.out.length - n.toNat)) else .refused := by
  simp [getOutput, h]

/-- Settles O55. -/
theorem outputReading : Obligations.OutputReading := by
  intro fuel s hu
  refine ⟨if_pos hu, fun i w hw => ?_, fun i hi => ?_, fun hout => ?_, fun l w hout => ?_, fun l m hout hm => ?_,
    fun n hn => ?_⟩
  · rw [transact_outRead hu, State.performOutRead, if_neg (by omega), Int.toNat_natCast, hw]
  · rw [transact_outRead hu, State.performOutRead]
    split
    · rfl
    · rw [List.getElem?_eq_none (by omega)]
  · rw [getOutput_of_usable hu, if_pos rfl, State.lastOut, hout, List.getLast?_nil]
  · rw [getOutput_of_usable hu, if_pos rfl, State.lastOut, hout, List.getLast?_concat]
  · have hlen : s.out.length = l.length + m.length := by rw [hout, List.length_append]
    rw [getOutput_of_usable hu, if_neg (by omega), if_pos (by omega), hlen, hout, Int.toNat_natCast,
      Nat.add_sub_cancel, List.drop_left]
  · rw [getOutput_of_usable hu, if_neg (by omega), if_neg (by omega)]

/-! ## What an accepted transaction can do -/

/-- `s.AnswersWith fuel x t`: accepted in `s`, the transaction `x` leaves the state `t`. -/
inductive Machine.State.AnswersWith (s : State) (fuel : Nat) : Transaction → State → Prop
  /-- The reading transactions change nothing. -/
  | read {x : Transaction} : s.AnswersWith fuel x s
  | load {program inputs : List Word} (hp : program.length ≤ s.cfg.memCells)
      (hi : withinCapacity s.cfg.inqCapacity inputs.length = true) :
      s.AnswersWith fuel (.load program inputs) (s.loaded program inputs)
  | run {vs : List Word} {strict : Bool} {t : State} (hu : s.engine.usable = true)
      (hroom : s.inqRoom vs.length = true) (h : runLoop fuel (s.startRun vs strict) = some t) :
      s.AnswersWith fuel (.run vs strict) t
  | push {v : Word} (hroom : s.inqRoom 1 = true) : s.AnswersWith fuel (.pushInput v) (s.pushInputs [v])
  | poke {a : Int} {n : Nat} {v : Word} (hn : s.check a = .ok n) : s.AnswersWith fuel (.poke a v) (s.store n v)

theorem Machine.answersWith_of_accepted {fuel : Nat} {x : Transaction} {r : Result} {s t : State}
    (h : transact fuel x s = .accepted r t) : s.AnswersWith fuel x t := by
  have hx := acceptedIn_of_transact h
  cases x with
  | load program inputs =>
    rw [transact_load (of_decide_eq_true hx), State.performLoad] at h
    split at h
    next hfit =>
      cases h
      exact .load hfit.1 hfit.2
    · cases h
  | run vs strict =>
    rw [transact_run hx] at h
    obtain ⟨hroom, hl, _⟩ := State.performRun_eq_accepted h
    exact .run hx hroom hl
  | pushInput v =>
    rw [transact_pushInput hx, State.performPush] at h
    split at h
    next hroom =>
      cases h
      exact .push hroom
    · cases h
  | outRead i =>
    rw [transact_outRead hx, State.performOutRead] at h
    split at h
    · cases h
    · split at h <;> cases h
      exact .read
  | peek a =>
    rw [transact_peek hx, State.performPeek] at h
    split at h <;> cases h
    exact .read
  | poke a v =>
    rw [transact_poke hx, State.performPoke] at h
    split at h
    · cases h
    next n hn =>
      cases h
      exact .poke hn
  | outCount | status | faultIp =>
    cases (if_pos hx).symm.trans h
    exact .read

section

variable {s : State} (h : s.Inv)
include h

theorem Machine.State.Inv.pushInputs {vs : List Word} (hroom : s.inqRoom vs.length = true) :
    (s.pushInputs vs).Inv :=
  { h with inq_fits := by rw [State.pushInputs_inq, List.length_append]; exact hroom }

theorem Machine.State.Inv.startRun {vs : List Word} (strict : Bool) (hroom : s.inqRoom vs.length = true)
    (he : s.engine ≠ .faulted) : (s.startRun vs strict).Inv := by
  have hpush := h.pushInputs hroom
  by_cases hh : s.engine = .halted
  · rwa [State.startRun_of_halted hh]
  · rw [State.startRun_of_not_halted hh]
    exact { hpush with fault_iff := by simp [h.fault_eq_none he] }

theorem Machine.State.Inv.loaded {program inputs : List Word} (hp : program.length ≤ s.cfg.memCells)
    (hi : withinCapacity s.cfg.inqCapacity inputs.length = true) : (s.loaded program inputs).Inv where
  cfg_wf := h.cfg_wf
  mem_wf := Memory.wf_ofProgram program
  mem_below := Memory.below_ofProgram program 0 (by rw [Nat.zero_add]; exact hp)
  ip_range := by simp [State.loaded]
  faultIp_range := bitVec65_toInt_range _
  inq_fits := hi
  out_fits := withinCapacity_iff.2 fun _ _ => Nat.zero_le _
  fault_iff := by simp [State.loaded]

theorem Machine.runLoop_keeps_inv {fuel : Nat} {t : State} (ht : runLoop fuel s = some t) : t.Inv :=
  (runLoop_induction (fun _ hi hs => step_keeps_inv hi hs) h ht).1

end

/-- Settles O41: a RUN keeps the invariant because each of its steps does. -/
theorem transactionsKeepTheInvariant : Obligations.TransactionsKeepTheInvariant := by
  intro fuel x r s t hinv h
  cases answersWith_of_accepted h with
  | read => exact hinv
  | load hp hi => exact hinv.loaded hp hi
  | @run vs strict _ hu hroom hl =>
    exact runLoop_keeps_inv (hinv.startRun strict hroom (engine_ne_faulted_of_usable hu)) hl
  | push hroom => exact hinv.pushInputs hroom
  | poke hn => exact hinv.store (State.lt_of_check hn) _

/-- A RUN on a HALTED machine only appends its inputs (R99). -/
theorem Machine.runLoop_startRun_of_halted {s : State} (h : s.engine = .halted) (fuel : Nat) (vs : List Word)
    (strict : Bool) : runLoop fuel (s.startRun vs strict) = some (s.pushInputs vs) := by
  rw [State.startRun_of_halted h, runLoop_of_not_running (by simp [h])]

/-- Settles O49: every other transaction leaves `STATE`, `OUT`, `ip` and `rb` of a HALTED machine. -/
theorem haltedIsTerminal : Obligations.HaltedIsTerminal := by
  refine ⟨fun fuel vs strict s he hroom => ?_, fun fuel x r s t he hload h => ?_⟩
  · have hu : s.engine.usable = true := by rw [he]; rfl
    have hresult : (s.pushInputs vs).runResult = .halted s.lastOut := by
      simp [State.runResult, he, State.lastOut]
    rw [transact_run hu, State.performRun_of_room hroom (runLoop_startRun_of_halted he fuel vs strict), hresult]
    rfl
  · cases answersWith_of_accepted h with
    | read | push | poke => exact ⟨he, rfl, rfl, rfl⟩
    | load => exact absurd rfl (hload _ _)
    | @run vs strict _ _ _ hl =>
      cases (runLoop_startRun_of_halted he fuel vs strict).symm.trans hl
      exact ⟨he, rfl, rfl, rfl⟩

end Sys2Proof
end
